-- ==== Sys2Proof/Word.lean ====
section
/-! DEFINITION. The word type of the core and the byte type of its host interface (R1). -/

namespace Sys2Proof

/-- R1: data, registers, addresses and instructions are 16-bit words. -/
abbrev Word := BitVec 16

/-- R1: a character on the host interface is 8 bits, one byte. -/
abbrev Byte := BitVec 8

end Sys2Proof
end

