-- ==== Sys2Proof/Config.lean ====
section
/-! DEFINITION. The values the spec leaves open, as constants without a body: nothing can be proved of the value of one.
The parameters to which the spec gives a value (R2, and the table of G1-G6) stand in Machine/Params.lean. -/

namespace Sys2Proof.Config

/-- R2, R95: the bytes of IN's prompt, "OPEN: a finite byte string". -/
opaque inPrompt : List Byte

/-- R2, R97: the bytes of HALT's notice, "OPEN: a finite byte string". -/
opaque haltNotice : List Byte

/-- R24: the answer of the n-th free draw where it is a `HostPoll()`: "a model draws it, under no law". -/
opaque hostPoll : Nat → Bool

/-- R25, R35: the byte of the n-th free draw where it is a `HostRead()` after a true poll, which does not block. -/
opaque hostByte : Nat → Byte

/-- R25: the answer of the n-th free draw where it is a `HostRead()` of GETC or IN: a byte, or none while the host has yielded
no character yet. -/
opaque hostRead : Nat → Option Byte

end Sys2Proof.Config
end

