-- ==== Sys2Proof/Syntax.lean ====
section
/-! DEFINITION. The instructions as syntax: one constructor per row of spec/opcode_table.json, with the fields of R52 in the
order in which they stand in the word (R53), the ignored bits among them. -/

namespace Sys2Proof

/-- R7: the eight general registers, named by a 3-bit index. -/
inductive Reg where
  | r0 | r1 | r2 | r3 | r4 | r5 | r6 | r7
  deriving DecidableEq, Repr

/-- R91: the six service routines of TRAP. -/
inductive ServiceName where
  | getc | out | puts | inChar | putsp | halt
  deriving DecidableEq, Repr

/-- The 26 rows of the opcode table. A field `ign…` holds bits that no field of the format uses (R61): no instruction's effect
depends on them, but the fault record holds the fetched word whole (R101). -/
inductive Instr where
  /-- ADD, register form (format OPR, R70). -/
  | addReg (dr sr1 : Reg) (ign : BitVec 2) (sr2 : Reg)
  /-- ADD, immediate form (format OPI, R71). -/
  | addImm (dr sr1 : Reg) (imm5 : BitVec 5)
  /-- AND, register form (format OPR, R72). -/
  | andReg (dr sr1 : Reg) (ign : BitVec 2) (sr2 : Reg)
  /-- AND, immediate form (format OPI, R73). -/
  | andImm (dr sr1 : Reg) (imm5 : BitVec 5)
  /-- NOT (R74). -/
  | not (dr sr : Reg) (ign : BitVec 6)
  /-- BR (R76); `nzp` is instr[11:9] (R59). -/
  | br (nzp : BitVec 3) (off9 : BitVec 9)
  /-- JMP (R77). -/
  | jmp (ignHi : BitVec 3) (base : Reg) (ignLo : BitVec 6)
  /-- RET, the words of JMP with BaseR = 7 (R78). -/
  | ret (ignHi : BitVec 3) (ignLo : BitVec 6)
  /-- JSR (R79). -/
  | jsr (off11 : BitVec 11)
  /-- JSRR (R80). -/
  | jsrr (ignHi : BitVec 2) (base : Reg) (ignLo : BitVec 6)
  /-- LD (R83). -/
  | ld (dr : Reg) (off9 : BitVec 9)
  /-- LDI (R84). -/
  | ldi (dr : Reg) (off9 : BitVec 9)
  /-- LDR (R85). -/
  | ldr (dr base : Reg) (off6 : BitVec 6)
  /-- LEA (R86). -/
  | lea (dr : Reg) (off9 : BitVec 9)
  /-- ST (R87). -/
  | st (sr : Reg) (off9 : BitVec 9)
  /-- STI (R88). -/
  | sti (sr : Reg) (off9 : BitVec 9)
  /-- STR (R89). -/
  | str (sr base : Reg) (off6 : BitVec 6)
  /-- TRAP (R90); the words of a vector that names a service decode to that service's own row below. -/
  | trap (ign : BitVec 4) (vect8 : BitVec 8)
  /-- GETC, TRAP x20 (R92). -/
  | getc (ign : BitVec 4)
  /-- OUT, TRAP x21 (R93). -/
  | out (ign : BitVec 4)
  /-- PUTS, TRAP x22 (R94). -/
  | puts (ign : BitVec 4)
  /-- IN, TRAP x23 (R95). -/
  | inChar (ign : BitVec 4)
  /-- PUTSP, TRAP x24 (R96). -/
  | putsp (ign : BitVec 4)
  /-- HALT, TRAP x25 (R97). -/
  | halt (ign : BitVec 4)
  /-- The reserved opcode 0b1000 (R62, R102). -/
  | reserved1000 (ign : BitVec 12)
  /-- The reserved opcode 0b1101 (R62, R102). -/
  | reserved1101 (ign : BitVec 12)
  deriving DecidableEq, Repr

end Sys2Proof
end

