-- ==== Sys2Proof/Machine/Params.lean ====
section
/-! DEFINITION. The named parameters of R2. Whatever depends on one takes them all as an argument, `P`, whose default is the table of
the values the spec fixes, `Params.spec`, so that a correction touches one place (93_implementation_defined.md section 3). The opcode
numbers and field positions of G1-G3 stand in Decode.lean, the flag codes of G4 in Machine/Flags.lean. -/

namespace Sys2Proof.Machine

/-- R2: the parameters, under the spec's names, and U12's `JSRR_BASE_AFTER_LINK`. -/
structure Params where
  /-- `PC_START`, the address of the first fetch. -/
  pcStart : Word
  /-- `KBSR_ADDR`. -/
  kbsrAddr : Word
  /-- `KBDR_ADDR`. -/
  kbdrAddr : Word
  /-- `KBSR_READY`, the status word after a poll that found a character (R35). -/
  kbsrReady : Word
  /-- `TRAP_GETC` .. `TRAP_HALT`, the vector of each service (R91). -/
  trapGetc : BitVec 8
  trapOut : BitVec 8
  trapPuts : BitVec 8
  trapIn : BitVec 8
  trapPutsp : BitVec 8
  trapHalt : BitVec 8
  /-- `IN_PROMPT` (R95). -/
  inPrompt : List Byte
  /-- `HALT_NOTICE` (R97). -/
  haltNotice : List Byte
  /-- `JSRR_BASE_AFTER_LINK`: whether JSRR reads its base after the link write (U12, R80). -/
  jsrrBaseAfterLink : Bool
  deriving DecidableEq, Repr

namespace Params

/-- R2: the values the spec fixes: PC_START (log 20), the keyboard's addresses (PRESUMED by the spec, G5; log 4), KBSR_READY (log 5),
the vectors (PRESUMED by the spec, G6; log 8), the two open strings (log 15), and JSRR's order as R80 decides it (log 12). -/
def spec : Params where
  pcStart := 0x3000
  kbsrAddr := 0xFE00
  kbdrAddr := 0xFE02
  kbsrReady := 0x8000
  trapGetc := 0x20
  trapOut := 0x21
  trapPuts := 0x22
  trapIn := 0x23
  trapPutsp := 0x24
  trapHalt := 0x25
  inPrompt := Config.inPrompt
  haltNotice := Config.haltNotice
  jsrrBaseAfterLink := true

/-- R2, R91: the vector of a service. -/
def vectorOf (P : Params) : ServiceName → BitVec 8
  | .getc => P.trapGetc
  | .out => P.trapOut
  | .puts => P.trapPuts
  | .inChar => P.trapIn
  | .putsp => P.trapPutsp
  | .halt => P.trapHalt

/-- R91: the service a vector selects; every other vector selects none. -/
def serviceOf (P : Params) (v : BitVec 8) : Option ServiceName :=
  if v = P.trapGetc then some .getc
  else if v = P.trapOut then some .out
  else if v = P.trapPuts then some .puts
  else if v = P.trapIn then some .inChar
  else if v = P.trapPutsp then some .putsp
  else if v = P.trapHalt then some .halt
  else none

/-- What a choice of the parameters has to keep: the two keyboard addresses are distinct (R3), and so are the six vectors, for R91's
table to be one. -/
def wf (P : Params) : Bool :=
  P.kbsrAddr != P.kbdrAddr && decide [P.trapGetc, P.trapOut, P.trapPuts, P.trapIn, P.trapPutsp, P.trapHalt].Nodup

/-- R1, R31: the memory size, fixed. It is also how many words PUTS and PUTSP read within one model step at most, one pass over
the whole memory (DESIGN CHOICE, log 23). -/
def memoryWords : Nat := 65536

end Params

end Sys2Proof.Machine
end

