-- ==== Sys2Proof/Machine/State.lean ====
section
/-! DEFINITION. The state of the core (10_state.md), the reasons a step can stop, and the state after reset (R28). -/

namespace Sys2Proof.Machine

/-- R7: the register file, eight words; no register is hard-wired. -/
structure RegFile where
  r0 : Word
  r1 : Word
  r2 : Word
  r3 : Word
  r4 : Word
  r5 : Word
  r6 : Word
  r7 : Word
  deriving DecidableEq, Repr

/-- R16, R17: COND holds exactly one of the three conditions. -/
inductive Cond where
  | n | z | p
  deriving DecidableEq, Repr

/-- R104: the fault causes, complete. -/
inductive FaultCause where
  | reservedOpcode
  | unknownTrapVector
  deriving DecidableEq, Repr

/-- R101: the fault record; `vector` is there exactly when the cause is UnknownTrapVector. -/
structure FaultRecord where
  cause : FaultCause
  pc : Word
  instr : Word
  vector : Option (BitVec 8)
  deriving DecidableEq, Repr

/-- R21: the execution-loop state. -/
inductive RunState where
  | running
  | halted
  | faulted (r : FaultRecord)
  deriving DecidableEq, Repr

/-- A service routine that has begun and not ended (R98, R100 (d), R129): GETC or IN holding in `HostRead()`, or PUTS or PUTSP
with the address of the next word to read. -/
inductive Service where
  | getc
  | inChar
  | puts (a : Word)
  | putsp (a : Word)
  deriving DecidableEq, Repr

/-- R31, R32: memory, as the cells (address, word) that do not read as an unlisted address reads. -/
abbrev Memory := List (Nat × Word)

/-- The host's side of the interface as plain data (R24-R27; log 21, log 17): answers of `HostPoll()` and `HostRead()` that are
given first, how many more attempts of a blocking `HostRead()` find no character, how many free draws have been made after them,
and whether the abort signal is raised. -/
structure HostPort where
  polls : List Bool
  chars : List Byte
  stall : Nat
  draws : Nat
  abort : Bool
  deriving DecidableEq, Repr

/-- The whole state (10_state.md). `svc` is the service in progress; `host` is the model's own, not the spec's. -/
structure State where
  regs : RegFile
  pc : Word
  cond : Cond
  mem : Memory
  run : RunState
  out : List Byte
  svc : Option Service
  host : HostPort
  deriving DecidableEq, Repr

/-- Why no next state follows. None of these is an instruction's doing: an instruction's fault is the next state `faulted`. -/
inductive Fault where
  /-- R21: no step is enabled from Halted. Raised by `step`; safe. -/
  | halted
  /-- R21, R101: no step is enabled from Faulted; the record is returned to the caller. Raised by `step`; safe. -/
  | faulted (r : FaultRecord)
  /-- R108: the host's abort ended the run, with no final state. Raised by `step`; safe. -/
  | hostAbort
  deriving DecidableEq, Repr

/-- Why an instruction has no meaning. -/
inductive Refusal where
  /-- An arm of `exec` without a meaning; every arm has one, so nothing raises it. Safe. -/
  | notModelled (mnemonic : String)
  deriving DecidableEq, Repr

/-- R28: registers zero. -/
def RegFile.reset : RegFile := ⟨0, 0, 0, 0, 0, 0, 0, 0⟩

/-- The host's side at reset: no answer and no wait given in advance, no draw made, no abort (DESIGN CHOICE, log 21 and log 17). -/
def HostPort.reset : HostPort := ⟨[], [], 0, 0, false⟩

/-- R28, R116 (1): registers 0, PC = PC_START, COND = Z, memory all zero, RUN = Running, output empty. -/
def State.resetAt (P : Params) : State where
  regs := RegFile.reset
  pc := P.pcStart
  cond := .z
  mem := []
  run := .running
  out := []
  svc := none
  host := HostPort.reset

/-- R28: the state after reset, with the parameters the spec fixes. -/
def State.reset : State := State.resetAt Params.spec

end Sys2Proof.Machine
end

