-- ==== Sys2Proof/Machine/Flags.lean ====
section
/-! DEFINITION. The condition flags: their codes (R16), the flag-update function (R19) and BR's mask test (R59, R76). -/

namespace Sys2Proof.Machine

/-- R16: the one-hot code of a condition (N and P PRESUMED by the spec, G4; log 3). -/
def condCode : Cond → BitVec 3
  | .n => 0b100
  | .z => 0b010
  | .p => 0b001

/-- R19: the condition of a 16-bit result. -/
def condOf (v : Word) : Cond :=
  if v = 0x0000 then .z else if v.getLsbD 15 then .n else .p

/-- R19: `setcc(v)`. -/
def setcc (v : Word) (s : State) : State := { s with cond := condOf v }

/-- R59, R76: whether the condition mask selects the condition. -/
def maskSelects (nzp : BitVec 3) (c : Cond) : Bool := nzp &&& condCode c != 0b000

end Sys2Proof.Machine
end

