-- ==== Sys2Proof/Machine/Memory.lean ====
section
/-! DEFINITION. Memory as a canonical list of cells: the stored word `mem[a]` of R34 and R37, with no side effect (log 24). -/

namespace Sys2Proof.Machine

/-- R28: what an address reads as that no cell lists; memory is "initialized to zero". -/
def Memory.unlisted : Word := 0x0000

/-- The stored word at an address: the first cell listed under it. -/
def Memory.read : Memory → Nat → Word
  | [], _ => Memory.unlisted
  | (k, v) :: rest, a => if k = a then v else Memory.read rest a

/-- The cells without those of one address. -/
def Memory.drop (m : Memory) (a : Nat) : Memory := m.filter fun c => c.1 != a

/-- A cell put before the first one of a greater address. -/
def Memory.insert (a : Nat) (v : Word) : Memory → Memory
  | [] => [(a, v)]
  | c :: rest => if a < c.1 then (a, v) :: c :: rest else c :: Memory.insert a v rest

/-- R37: `mem[a] <- v`. Writing what an unlisted address reads as removes the cell. -/
def Memory.write (m : Memory) (a : Nat) (v : Word) : Memory :=
  if v = Memory.unlisted then m.drop a else Memory.insert a v (m.drop a)

/-- Addresses strictly rising, each of them greater than `lo` where `lo` is given. -/
def Memory.rising : Option Nat → Memory → Bool
  | _, [] => true
  | lo, (k, _) :: rest => (lo.all fun l => l < k) && Memory.rising (some k) rest

/-- The canonical form: addresses strictly rising, all of the 65536 of R31, and no cell that reads as an unlisted address. -/
def Memory.wf (m : Memory) : Bool :=
  Memory.rising none m && m.all fun c => c.1 < Params.memoryWords && c.2 != Memory.unlisted

end Sys2Proof.Machine
end

