-- ==== Sys2Proof/Machine/Ops.lean ====
section
/-! DEFINITION. The operations every meaning is written over: registers, the host's capabilities, the intercepting memory read
and the store, the link write, and fault entry. -/

namespace Sys2Proof.Machine

/-- R9: the value of a register of the file. -/
def RegFile.read (f : RegFile) : Reg → Word
  | .r0 => f.r0
  | .r1 => f.r1
  | .r2 => f.r2
  | .r3 => f.r3
  | .r4 => f.r4
  | .r5 => f.r5
  | .r6 => f.r6
  | .r7 => f.r7

/-- R7, R9: the file with one register written. -/
def RegFile.write (f : RegFile) (r : Reg) (v : Word) : RegFile :=
  match r with
  | .r0 => { f with r0 := v }
  | .r1 => { f with r1 := v }
  | .r2 => { f with r2 := v }
  | .r3 => { f with r3 := v }
  | .r4 => { f with r4 := v }
  | .r5 => { f with r5 := v }
  | .r6 => { f with r6 := v }
  | .r7 => { f with r7 := v }

/-- `x[r]`. -/
def State.reg (s : State) (r : Reg) : Word := s.regs.read r

/-- `x[r] <- v`. -/
def setReg (r : Reg) (v : Word) (s : State) : State := { s with regs := s.regs.write r v }

/-- `pc <- t`. -/
def setPc (t : Word) (s : State) : State := { s with pc := t }

/-- `mem[a]`, the stored word with no side effect. -/
def State.word (s : State) (a : Word) : Word := s.mem.read a.toNat

/-- R37: `MemWrite(a, 1, v)`, an unconditional store. -/
def memWrite (a v : Word) (s : State) : State := { s with mem := s.mem.write a.toNat v }

/-- R26: `HostWrite(b)`. -/
def hostWrite (b : Byte) (s : State) : State := { s with out := s.out ++ [b] }

/-- R95, R97: `HostWrite(b)` for each byte of a string, in order. -/
def hostWriteAll (bs : List Byte) (s : State) : State := { s with out := s.out ++ bs }

/-- One more free draw made (log 21). -/
def nextDraw (s : State) : State := { s with host := { s.host with draws := s.host.draws + 1 } }

/-- R24: `HostPoll()`: the next answer given in advance, else a free draw. -/
def hostPoll (s : State) : Bool × State :=
  match s.host.polls with
  | b :: rest => (b, { s with host := { s.host with polls := rest } })
  | [] => (Config.hostPoll s.host.draws, nextDraw s)

/-- R25, R35: `HostRead()` after a true poll, which does not block: the next character given in advance, else a free draw. -/
def hostReadReady (s : State) : Byte × State :=
  match s.host.chars with
  | c :: rest => (c, { s with host := { s.host with chars := rest } })
  | [] => (Config.hostByte s.host.draws, nextDraw s)

/-- R25: one attempt of GETC's or IN's `HostRead()`: a character, or none while the host yields none. -/
def hostReadAttempt (s : State) : Option Byte × State :=
  match s.host.stall, s.host.chars with
  | k + 1, _ => (none, { s with host := { s.host with stall := k } })
  | 0, c :: rest => (some c, { s with host := { s.host with chars := rest } })
  | 0, [] => (Config.hostRead s.host.draws, nextDraw s)

/-- R5's notation `zext_16(b)`: a byte zero-extended to a word (log 6). -/
def zext16 (b : Byte) : Word := b.setWidth 16

/-- R35: `KeyboardPoll()`. -/
def keyboardPoll (s : State) (P : Params := Params.spec) : State :=
  match hostPoll s with
  | (true, s1) =>
    match hostReadReady s1 with
    | (c, s2) => memWrite P.kbdrAddr (zext16 c) (memWrite P.kbsrAddr P.kbsrReady s2)
  | (false, s1) => memWrite P.kbsrAddr 0x0000 s1

/-- R34: the state a `MemRead(a, 1)` leaves: polled where `a` is the keyboard-status address, else unchanged (R36). -/
def afterRead (a : Word) (s : State) (P : Params := Params.spec) : State :=
  if a = P.kbsrAddr then keyboardPoll s P else s

/-- R34, R38: `MemRead(a, 1)`, the read of every core access: the word, and the state the read leaves. -/
def memRead (a : Word) (s : State) (P : Params := Params.spec) : Word × State :=
  ((afterRead a s P).word a, afterRead a s P)

/-- R20: a result written to its destination register with the flags set from it. -/
def writeResult (dr : Reg) (v : Word) (s : State) : State := setcc v (setReg dr v s)

/-- R8: the link write `x[7] <- pc` of JSR, JSRR and TRAP; COND is left alone (C1). -/
def linkR7 (s : State) : State := setReg .r7 s.pc s

/-- R101: fault entry, `raise Fault(cause, info)`: RUN holds the record and nothing else is written. PC is the incremented PC, so
the faulting instruction stands at PC - 1. There is no return from it (R107). -/
def raiseFault (cause : FaultCause) (instr : Word) (vector : Option (BitVec 8)) (s : State) : State :=
  { s with run := .faulted ⟨cause, s.pc - 1, instr, vector⟩ }

/-- R97: `run <- Halted`. -/
def setHalted (s : State) : State := { s with run := .halted }

/-- The service in progress recorded, or none once it ends (log 22, log 23). -/
def setService (v : Option Service) (s : State) : State := { s with svc := v }

end Sys2Proof.Machine
end

