-- ==== Sys2Proof/Machine/Operands.lean ====
section
/-! DEFINITION. Immediates and effective addresses (R54-R57, R82), and the characters packed in a word (R39). -/

namespace Sys2Proof.Machine

/-- R4: `sext_16(f, n)`. -/
def sext16 {n : Nat} (f : BitVec n) : Word := f.signExtend 16

/-- R55, R82: the PC-relative address; PC is the incremented PC (R12). -/
def eaPc (off9 : BitVec 9) (s : State) : Word := s.pc + sext16 off9

/-- R56: the target of JSR. -/
def eaPc11 (off11 : BitVec 11) (s : State) : Word := s.pc + sext16 off11

/-- R57, R82: base + offset. -/
def eaBase (base : Reg) (off6 : BitVec 6) (s : State) : Word := s.reg base + sext16 off6

/-- `w[7:0]`: the character OUT and PUTS write and the first one PUTSP writes. -/
def lowByte (w : Word) : Byte := w.extractLsb' 0 8

/-- `w[15:8]`: the second character PUTSP writes. -/
def highByte (w : Word) : Byte := w.extractLsb' 8 8

end Sys2Proof.Machine
end

