-- ==== Sys2Proof/Machine/Control.lean ====
section
/-! DEFINITION. BR, JMP, RET, JSR and JSRR (41_control.md). PC is the incremented PC (R12). -/

namespace Sys2Proof.Machine

/-- R76: BR. -/
def execBr (nzp : BitVec 3) (off9 : BitVec 9) (s : State) : Host.Outcome State Fault Refusal :=
  .next (if maskSelects nzp s.cond then setPc (eaPc off9 s) s else s)

/-- R77: JMP. -/
def execJmp (base : Reg) (s : State) : Host.Outcome State Fault Refusal :=
  .next (setPc (s.reg base) s)

/-- R78: RET, JMP through R7. -/
def execRet (s : State) : Host.Outcome State Fault Refusal :=
  .next (setPc (s.reg .r7) s)

/-- R79: JSR; the target is relative to the incremented PC, which the link write leaves as it is. -/
def execJsr (off11 : BitVec 11) (s : State) : Host.Outcome State Fault Refusal :=
  .next (setPc (eaPc11 off11 s) (linkR7 s))

/-- R80: JSRR; the base is read after the link write, so through R7 it goes on at the next instruction (log 12). -/
def execJsrr (base : Reg) (s : State) (P : Params := Params.spec) :
    Host.Outcome State Fault Refusal :=
  .next (setPc ((if P.jsrrBaseAfterLink then linkR7 s else s).reg base) (linkR7 s))

end Sys2Proof.Machine
end

