-- ==== Sys2Proof/Machine/LoadStore.lean ====
section
/-! DEFINITION. LD, LDI, LDR, LEA, ST, STI and STR (42_load_store.md). Every read is `memRead` and polls at KBSR (R38). -/

namespace Sys2Proof.Machine

/-- R83-R85: the word at an address read into a register, with the flags set from it. -/
def loadTo (dr : Reg) (a : Word) (s : State) (P : Params := Params.spec) : State :=
  writeResult dr (memRead a s P).1 (memRead a s P).2

/-- R87-R89: a register stored at an address. -/
def storeFrom (sr : Reg) (a : Word) (s : State) : State := memWrite a (s.reg sr) s

/-- R83: LD. -/
def execLd (dr : Reg) (off9 : BitVec 9) (s : State) (P : Params := Params.spec) :
    Host.Outcome State Fault Refusal :=
  .next (loadTo dr (eaPc off9 s) s P)

/-- R84: LDI; the pointer is read first, then the data. -/
def execLdi (dr : Reg) (off9 : BitVec 9) (s : State) (P : Params := Params.spec) :
    Host.Outcome State Fault Refusal :=
  .next (loadTo dr (memRead (eaPc off9 s) s P).1 (memRead (eaPc off9 s) s P).2 P)

/-- R85: LDR; the base is read before the destination is written. -/
def execLdr (dr base : Reg) (off6 : BitVec 6) (s : State) (P : Params := Params.spec) :
    Host.Outcome State Fault Refusal :=
  .next (loadTo dr (eaBase base off6 s) s P)

/-- R86: LEA, which reads no memory and sets the flags. -/
def execLea (dr : Reg) (off9 : BitVec 9) (s : State) : Host.Outcome State Fault Refusal :=
  .next (writeResult dr (eaPc off9 s) s)

/-- R87: ST. -/
def execSt (sr : Reg) (off9 : BitVec 9) (s : State) : Host.Outcome State Fault Refusal :=
  .next (storeFrom sr (eaPc off9 s) s)

/-- R88: STI; the pointer read polls at KBSR, the store does not. -/
def execSti (sr : Reg) (off9 : BitVec 9) (s : State) (P : Params := Params.spec) :
    Host.Outcome State Fault Refusal :=
  .next (storeFrom sr (memRead (eaPc off9 s) s P).1 (memRead (eaPc off9 s) s P).2)

/-- R89: STR. -/
def execStr (sr base : Reg) (off6 : BitVec 6) (s : State) : Host.Outcome State Fault Refusal :=
  .next (storeFrom sr (eaBase base off6 s) s)

end Sys2Proof.Machine
end

