-- ==== Sys2Proof/WellFormed.lean ====
section
/-! DEFINITION. Which instruction terms are the reading of some word. Every field's width is in its type; what is left is that a
word with two spellings (R68) is written under the more specific one. -/

namespace Sys2Proof

/-- R68, R78, R91: JMP through R7 is written RET, and TRAP with a service's vector is written as that service. -/
def WellFormed (i : Instr) (P : Machine.Params := Machine.Params.spec) : Bool :=
  match i with
  | .jmp _ base _ => base != .r7
  | .trap _ v => (P.serviceOf v).isNone
  | .addReg .. | .addImm .. | .andReg .. | .andImm .. | .not .. | .br .. | .ret .. | .jsr .. | .jsrr .. | .ld .. | .ldi ..
  | .ldr .. | .lea .. | .st .. | .sti .. | .str .. | .getc .. | .out .. | .puts .. | .inChar .. | .putsp .. | .halt ..
  | .reserved1000 .. | .reserved1101 .. => true

end Sys2Proof
end

