-- ==== Sys2Proof/Decode.lean ====
section
/-! DEFINITION. The decoder and the encoder, from the opcode map R51 and the formats R52 and R53 (opcode numbers and bit positions
PRESUMED by the spec, G1-G3; log 1). -/

namespace Sys2Proof

/-- R52, R60: the register a 3-bit index selects. -/
def regOfBits (b : BitVec 3) : Reg :=
  match b.toNat with
  | 0 => .r0 | 1 => .r1 | 2 => .r2 | 3 => .r3 | 4 => .r4 | 5 => .r5 | 6 => .r6 | _ => .r7

/-- R7: the 3-bit index of a register. -/
def bitsOfReg : Reg → BitVec 3
  | .r0 => 0 | .r1 => 1 | .r2 => 2 | .r3 => 3 | .r4 => 4 | .r5 => 5 | .r6 => 6 | .r7 => 7

/-- R5's notation `w[hi:lo]`: the field of `len` bits whose lowest is bit `lo`. -/
def bitField (w : Word) (lo len : Nat) : BitVec len := w.extractLsb' lo len

/-- The register field whose lowest bit is bit `lo` (R52: DR and SR at 9, SR1 and BaseR at 6, SR2 at 0). -/
def regField (w : Word) (lo : Nat) : Reg := regOfBits (bitField w lo 3)

/-- R51, R53: ADD and AND choose their form by bit 5. -/
def decodeOperate (w : Word) (reg : Reg → Reg → BitVec 2 → Reg → Instr) (imm : Reg → Reg → BitVec 5 → Instr) : Instr :=
  if bitField w 5 1 = 1 then imm (regField w 9) (regField w 6) (bitField w 0 5)
  else reg (regField w 9) (regField w 6) (bitField w 3 2) (regField w 0)

/-- R51, R53: opcode 0100 is JSR or JSRR by bit 11. -/
def decodeJsr (w : Word) : Instr :=
  if bitField w 11 1 = 1 then .jsr (bitField w 0 11)
  else .jsrr (bitField w 9 2) (regField w 6) (bitField w 0 6)

/-- R77, R78: opcode 1100 is written RET where BaseR = 7. -/
def decodeJmp (w : Word) : Instr :=
  if regField w 6 = .r7 then .ret (bitField w 9 3) (bitField w 0 6)
  else .jmp (bitField w 9 3) (regField w 6) (bitField w 0 6)

/-- R58, R91: opcode 1111 is written as the service its vector selects, if it selects one. -/
def decodeTrap (w : Word) (P : Machine.Params := Machine.Params.spec) : Instr :=
  match P.serviceOf (bitField w 0 8) with
  | some .getc => .getc (bitField w 8 4)
  | some .out => .out (bitField w 8 4)
  | some .puts => .puts (bitField w 8 4)
  | some .inChar => .inChar (bitField w 8 4)
  | some .putsp => .putsp (bitField w 8 4)
  | some .halt => .halt (bitField w 8 4)
  | none => .trap (bitField w 8 4) (bitField w 0 8)

/-- R66: the decoder is total; R51: by instr[15:12]. The last arm is the value 1111, the only one left. -/
def decodeWord (w : Word) (P : Machine.Params := Machine.Params.spec) : Instr :=
  match (bitField w 12 4).toNat with
  | 0x0 => .br (bitField w 9 3) (bitField w 0 9)
  | 0x1 => decodeOperate w .addReg .addImm
  | 0x2 => .ld (regField w 9) (bitField w 0 9)
  | 0x3 => .st (regField w 9) (bitField w 0 9)
  | 0x4 => decodeJsr w
  | 0x5 => decodeOperate w .andReg .andImm
  | 0x6 => .ldr (regField w 9) (regField w 6) (bitField w 0 6)
  | 0x7 => .str (regField w 9) (regField w 6) (bitField w 0 6)
  | 0x8 => .reserved1000 (bitField w 0 12)
  | 0x9 => .not (regField w 9) (regField w 6) (bitField w 0 6)
  | 0xA => .ldi (regField w 9) (bitField w 0 9)
  | 0xB => .sti (regField w 9) (bitField w 0 9)
  | 0xC => decodeJmp w
  | 0xD => .reserved1101 (bitField w 0 12)
  | 0xE => .lea (regField w 9) (bitField w 0 9)
  | _ => decodeTrap w P

/-- Why a sequence of words holds no instruction. -/
inductive DecodeError where
  /-- No word is there: an instruction is one word (R50). Raised by `decode` on the empty list; safe. -/
  | noWord
  deriving DecidableEq, Repr

/-- R50, R64: an instruction is the first word, whatever follows it. -/
def decode (ws : List Word) (P : Machine.Params := Machine.Params.spec) : Except DecodeError (Instr × List Word) :=
  match ws with
  | [] => .error .noWord
  | w :: rest => .ok (decodeWord w P, rest)

/-- The word of the format OPR (R53). -/
def wordOpr (op : BitVec 4) (dr sr1 : Reg) (ign : BitVec 2) (sr2 : Reg) : Word :=
  op ++ bitsOfReg dr ++ bitsOfReg sr1 ++ 0#1 ++ ign ++ bitsOfReg sr2

/-- The word of the format OPI (R53). -/
def wordOpi (op : BitVec 4) (dr sr1 : Reg) (imm5 : BitVec 5) : Word :=
  op ++ bitsOfReg dr ++ bitsOfReg sr1 ++ 1#1 ++ imm5

/-- The word of the format PCREL (R53). -/
def wordPcrel (op : BitVec 4) (r : Reg) (off9 : BitVec 9) : Word := op ++ bitsOfReg r ++ off9

/-- The word of the format BASE (R53), and of NOT, whose bits 5:0 are ignored. -/
def wordBase (op : BitVec 4) (r base : Reg) (off6 : BitVec 6) : Word := op ++ bitsOfReg r ++ bitsOfReg base ++ off6

/-- The word of the format JMP (R53). -/
def wordJmp (ignHi : BitVec 3) (base : Reg) (ignLo : BitVec 6) : Word := 0xC#4 ++ ignHi ++ bitsOfReg base ++ ignLo

/-- The word of the format TRAP (R53). -/
def wordTrap (ign : BitVec 4) (v : BitVec 8) : Word := 0xF#4 ++ ign ++ v

/-- The word of an instruction: the formats of R53 with the opcode numbers of R51. -/
def encode (i : Instr) (P : Machine.Params := Machine.Params.spec) : Word :=
  match i with
  | .addReg dr sr1 ign sr2 => wordOpr 0x1 dr sr1 ign sr2
  | .addImm dr sr1 imm5 => wordOpi 0x1 dr sr1 imm5
  | .andReg dr sr1 ign sr2 => wordOpr 0x5 dr sr1 ign sr2
  | .andImm dr sr1 imm5 => wordOpi 0x5 dr sr1 imm5
  | .not dr sr ign => wordBase 0x9 dr sr ign
  | .br nzp off9 => 0x0#4 ++ nzp ++ off9
  | .jmp ignHi base ignLo => wordJmp ignHi base ignLo
  | .ret ignHi ignLo => wordJmp ignHi .r7 ignLo
  | .jsr off11 => 0x4#4 ++ 1#1 ++ off11
  | .jsrr ignHi base ignLo => 0x4#4 ++ 0#1 ++ ignHi ++ bitsOfReg base ++ ignLo
  | .ld dr off9 => wordPcrel 0x2 dr off9
  | .ldi dr off9 => wordPcrel 0xA dr off9
  | .ldr dr base off6 => wordBase 0x6 dr base off6
  | .lea dr off9 => wordPcrel 0xE dr off9
  | .st sr off9 => wordPcrel 0x3 sr off9
  | .sti sr off9 => wordPcrel 0xB sr off9
  | .str sr base off6 => wordBase 0x7 sr base off6
  | .trap ign v => wordTrap ign v
  | .getc ign => wordTrap ign (P.vectorOf .getc)
  | .out ign => wordTrap ign (P.vectorOf .out)
  | .puts ign => wordTrap ign (P.vectorOf .puts)
  | .inChar ign => wordTrap ign (P.vectorOf .inChar)
  | .putsp ign => wordTrap ign (P.vectorOf .putsp)
  | .halt ign => wordTrap ign (P.vectorOf .halt)
  | .reserved1000 ign => 0x8#4 ++ ign
  | .reserved1101 ign => 0xD#4 ++ ign

/-- The instruction the decoder reads from an instruction whose bits, numbered as spec/opcode_table.json numbers them, are `w`:
one word (R50), so none where the row has more bits than a word or `w` has more bits than the row. -/
def decodeTableWord (nbits w : Nat) : Option Instr :=
  if nbits ≤ 16 ∧ w < 2 ^ nbits then (decode [BitVec.ofNat 16 w]).toOption.map (·.1) else none

end Sys2Proof
end

