-- ==== Sys2Proof/Machine/Reserved.lean ====
section
/-! DEFINITION. The two reserved opcodes (R62, R102). -/

namespace Sys2Proof.Machine

/-- R102: opcode 0b1000 faults ReservedOpcode, whatever bits 11:0 hold. -/
def execReserved1000 (ign : BitVec 12) (s : State) : Host.Outcome State Fault Refusal :=
  .next (raiseFault .reservedOpcode (encode (.reserved1000 ign)) none s)

/-- R102: opcode 0b1101 faults ReservedOpcode, whatever bits 11:0 hold. -/
def execReserved1101 (ign : BitVec 12) (s : State) : Host.Outcome State Fault Refusal :=
  .next (raiseFault .reservedOpcode (encode (.reserved1101 ign)) none s)

end Sys2Proof.Machine
end

