-- ==== Sys2Proof/Machine/Trap.lean ====
section
/-! DEFINITION. TRAP and its services (43_trap.md), and what carries on a service that a model step leaves in progress. -/

namespace Sys2Proof.Machine

/-- R92: the end of GETC once the host has yielded a byte. -/
def getcFinish (c : Byte) (s : State) : State := writeResult .r0 (zext16 c) s

/-- R95: the end of IN once the host has yielded a byte: the echo comes first. -/
def inFinish (c : Byte) (s : State) : State := writeResult .r0 (zext16 c) (hostWrite c s)

/-- R98, R100 (d): a blocking `HostRead()`: the routine ends with the byte, or holds and is tried again by the next step. -/
def awaitChar (held : Service) (finish : Byte → State → State) (s : State) : State :=
  match hostReadAttempt s with
  | (some c, s1) => setService none (finish c s1)
  | (none, s1) => setService (some held) s1

/-- R92: GETC's routine, from the read on. -/
def getcRead (s : State) : State := awaitChar .getc getcFinish s

/-- R95: IN's routine, from the read on; the prompt has been written. -/
def inRead (s : State) : State := awaitChar .inChar inFinish s

/-- R94: the bytes PUTS writes for a word: bits 7:0 (log 14). -/
def putsBytes (w : Word) : List Byte := [lowByte w]

/-- R96: the bytes PUTSP writes for a word: the low byte always, then the high byte if it is not zero. -/
def putspBytes (w : Word) : List Byte :=
  if highByte w = 0x00 then [lowByte w] else [lowByte w, highByte w]

/-- R94, R96: the loop of the string services: words are read from `a` on until a zero word. At most `n` words are read within
one model step; a longer string leaves the service in progress and the next step carries it on (log 23). -/
def stringLoop (held : Word → Service) (bytes : Word → List Byte) (n : Nat) (a : Word) (s : State)
    (P : Params := Params.spec) : State :=
  match n with
  | 0 => setService (some (held a)) s
  | n + 1 =>
    match memRead a s P with
    | (w, s1) =>
      if w = 0x0000 then setService none s1 else stringLoop held bytes n (a + 1) (hostWriteAll (bytes w) s1) P

/-- R94: PUTS's routine, from the word at `a` on. -/
def putsFrom (a : Word) (s : State) (P : Params := Params.spec) : State :=
  stringLoop .puts putsBytes Params.memoryWords a s P

/-- R96: PUTSP's routine, from the word at `a` on. -/
def putspFrom (a : Word) (s : State) (P : Params := Params.spec) : State :=
  stringLoop .putsp putspBytes Params.memoryWords a s P

/-- R92: GETC's routine. -/
def serviceGetc (s : State) : State := getcRead s

/-- R93: OUT's routine. -/
def serviceOut (s : State) : State := hostWrite (lowByte (s.reg .r0)) s

/-- R94: PUTS's routine. -/
def servicePuts (s : State) (P : Params := Params.spec) : State := putsFrom (s.reg .r0) s P

/-- R95: IN's routine. -/
def serviceIn (s : State) (P : Params := Params.spec) : State := inRead (hostWriteAll P.inPrompt s)

/-- R96: PUTSP's routine. -/
def servicePutsp (s : State) (P : Params := Params.spec) : State := putspFrom (s.reg .r0) s P

/-- R97: HALT's routine. -/
def serviceHalt (s : State) (P : Params := Params.spec) : State :=
  setHalted (hostWriteAll P.haltNotice s)

/-- R91: the routine of a service. -/
def runService (n : ServiceName) (s : State) (P : Params := Params.spec) : State :=
  match n with
  | .getc => serviceGetc s
  | .out => serviceOut s
  | .puts => servicePuts s P
  | .inChar => serviceIn s P
  | .putsp => servicePutsp s P
  | .halt => serviceHalt s P

/-- R90, R91, R103: TRAP: the link write, then the service the vector selects, or the fault UnknownTrapVector. -/
def execTrap (ign : BitVec 4) (v : BitVec 8) (s : State) (P : Params := Params.spec) :
    Host.Outcome State Fault Refusal :=
  .next (match P.serviceOf v with
    | some n => runService n (linkR7 s) P
    | none => raiseFault .unknownTrapVector (encode (.trap ign v)) (some v) (linkR7 s))

/-- R90, R92: GETC. -/
def execGetc (s : State) : Host.Outcome State Fault Refusal := .next (serviceGetc (linkR7 s))

/-- R90, R93: OUT; R0 is not the link register, so it is read as it was. -/
def execOut (s : State) : Host.Outcome State Fault Refusal := .next (serviceOut (linkR7 s))

/-- R90, R94: PUTS. -/
def execPuts (s : State) (P : Params := Params.spec) : Host.Outcome State Fault Refusal :=
  .next (servicePuts (linkR7 s) P)

/-- R90, R95: IN. -/
def execIn (s : State) (P : Params := Params.spec) : Host.Outcome State Fault Refusal :=
  .next (serviceIn (linkR7 s) P)

/-- R90, R96: PUTSP. -/
def execPutsp (s : State) (P : Params := Params.spec) : Host.Outcome State Fault Refusal :=
  .next (servicePutsp (linkR7 s) P)

/-- R90, R97: HALT. -/
def execHalt (s : State) (P : Params := Params.spec) : Host.Outcome State Fault Refusal :=
  .next (serviceHalt (linkR7 s) P)

/-- R98, R100 (d), R129: a service in progress carried on, with no fetch between. -/
def resumeService (v : Service) (s : State) (P : Params := Params.spec) : State :=
  match v with
  | .getc => getcRead s
  | .inChar => inRead s
  | .puts a => putsFrom a s P
  | .putsp a => putspFrom a s P

end Sys2Proof.Machine
end

