-- ==== Sys2Proof/Machine/Fetch.lean ====
section
/-! DEFINITION. The fetch of R49, and an instruction's word laid where the fetch finds it. -/

namespace Sys2Proof.Machine

/-- R49, R38: the word fetched; a fetch at KBSR polls first and gets the fresh status word. -/
def fetchWord (s : State) (P : Params := Params.spec) : Word := (memRead s.pc s P).1

/-- R49, R14: the state the handler sees: after the fetch's read, with PC incremented modulo 2^16. -/
def afterFetch (s : State) (P : Params := Params.spec) : State := setPc (s.pc + 1) (memRead s.pc s P).2

/-- The word of a table row of `nbits` bits, every bit above them 0. -/
def tableWord (nbits w : Nat) : Word := BitVec.ofNat 16 (w % 2 ^ nbits)

/-- The address `withFetchWord` uses: PC, but PC_START where PC is KBSR, whose word the poll of a fetch overwrites (log 25). -/
def fetchSlot (s : State) : Word := if s.pc = Params.spec.kbsrAddr then Params.spec.pcStart else s.pc

/-- The state that fetches `w` next: the word stored where the fetch reads, and the machine running, with no service in progress
and no abort raised, so that the very next step is a fetch (log 25). -/
def placeFetchWord (nbits w : Nat) (s : State) : State :=
  { memWrite (fetchSlot s) (tableWord nbits w) s with
    pc := fetchSlot s, run := .running, svc := none, host := { s.host with abort := false } }

end Sys2Proof.Machine
end

