-- ==== Sys2Proof/Machine/Step.lean ====
section
/-! DEFINITION. One step of the execution loop (R49, R100). -/

namespace Sys2Proof.Machine

/-- R108, R105: an abort precedes everything; R21: no step from Halted or Faulted; R98: a service in progress is carried on before
any fetch; R49: else fetch, increment, decode, one handler. `run` is the handlers under the parameters `P`. -/
def stepWith (P : Params) (run : Instr → State → Host.Outcome State Fault Refusal) (s : State) : Host.Outcome State Fault Refusal :=
  if s.host.abort then .fault .hostAbort
  else match s.run with
    | .halted => .fault .halted
    | .faulted r => .fault (.faulted r)
    | .running =>
      match s.svc with
      | some v => .next (resumeService v s P)
      | none => run (decodeWord (fetchWord s P) P) (afterFetch s P)

/-- R49, R100: one step of the machine, with the parameters the spec fixes. -/
def step (s : State) : Host.Outcome State Fault Refusal := stepWith Params.spec exec s

/-- The state with an instruction word stored where `step` fetches its next instruction (log 25). -/
def State.withFetchWord (s : State) (nbits w : Nat) : State := placeFetchWord nbits w s

end Sys2Proof.Machine
end

