-- ==== Sys2Proof/Machine/Boot.lean ====
section
/-! DEFINITION. Image loading and the start of a run (R116-R122), as they define the memory the core starts from. -/

namespace Sys2Proof.Machine

/-- Why the core is not entered (R116). -/
inductive BootError where
  /-- R116: no image is supplied. Raised by `boot`; safe. -/
  | noImage
  /-- R122: an image has no whole origin word. Raised by `loadImage`; safe. -/
  | shortImage
  deriving DecidableEq, Repr

/-- R118: two bytes as a big-endian word. -/
def bigEndian (hi lo : Byte) : Word := hi ++ lo

/-- R118, R122: the whole big-endian words of a byte stream; a trailing odd byte is ignored. -/
def imageWords : List Byte → List Word
  | hi :: lo :: rest => bigEndian hi lo :: imageWords rest
  | _ => []

/-- R118, R119: words stored from an address on; those that would land above 0xFFFF are discarded. -/
def storeWords : Nat → List Word → Memory → Memory
  | _, [], m => m
  | a, w :: rest, m => if a < Params.memoryWords then storeWords (a + 1) rest (m.write a w) else m

/-- R117, R118: `LoadImage`: word 0 is the origin; memory alone is written, with no poll. -/
def loadImage (bytes : List Byte) (m : Memory) : Except BootError Memory :=
  match imageWords bytes with
  | [] => .error .shortImage
  | origin :: words => .ok (storeWords origin.toNat words m)

/-- R120: the images in the order given, later ones over earlier ones. -/
def loadImages : List (List Byte) → Memory → Except BootError Memory
  | [], m => .ok m
  | b :: rest, m =>
    match loadImage b m with
    | .ok m1 => loadImages rest m1
    | .error e => .error e

/-- R116: the state at the first step: reset, then the images; the core is not entered where there is none or one fails. -/
def boot (images : List (List Byte)) (P : Params := Params.spec) : Except BootError State :=
  match images, loadImages images (State.resetAt P).mem with
  | [], _ => .error .noImage
  | _ :: _, .ok m => .ok { State.resetAt P with mem := m }
  | _ :: _, .error e => .error e

/-- R27, R108: the host raises its abort signal, at any point of a run (log 17). -/
def raiseAbort (s : State) : State := { s with host := { s.host with abort := true } }

end Sys2Proof.Machine
end

