-- ==== Sys2Proof/Machine/Parametric.lean ====
section
/-! DEFINITION. The machine as R2 has it, each parameter taken as an argument: the same meanings and the same step under any
parameters. At `Params.spec` it is `exec`, `step` and `core` (Laws/Parametric.lean). -/

namespace Sys2Proof.Machine

/-- R2, R49: dispatch under the parameters `P`. -/
def execAt (P : Params) (i : Instr) (s : State) : Host.Outcome State Fault Refusal :=
  match i with
  | .addReg dr sr1 _ sr2 => execAddReg dr sr1 sr2 s
  | .addImm dr sr1 imm5 => execAddImm dr sr1 imm5 s
  | .andReg dr sr1 _ sr2 => execAndReg dr sr1 sr2 s
  | .andImm dr sr1 imm5 => execAndImm dr sr1 imm5 s
  | .not dr sr _ => execNot dr sr s
  | .br nzp off9 => execBr nzp off9 s
  | .jmp _ base _ => execJmp base s
  | .ret _ _ => execRet s
  | .jsr off11 => execJsr off11 s
  | .jsrr _ base _ => execJsrr base s P
  | .ld dr off9 => execLd dr off9 s P
  | .ldi dr off9 => execLdi dr off9 s P
  | .ldr dr base off6 => execLdr dr base off6 s P
  | .lea dr off9 => execLea dr off9 s
  | .st sr off9 => execSt sr off9 s
  | .sti sr off9 => execSti sr off9 s P
  | .str sr base off6 => execStr sr base off6 s
  | .trap ign v => execTrap ign v s P
  | .getc _ => execGetc s
  | .out _ => execOut s
  | .puts _ => execPuts s P
  | .inChar _ => execIn s P
  | .putsp _ => execPutsp s P
  | .halt _ => execHalt s P
  | .reserved1000 ign => execReserved1000 ign s
  | .reserved1101 ign => execReserved1101 ign s

/-- R2, R49: one step under the parameters `P`. -/
def stepAt (P : Params) (s : State) : Host.Outcome State Fault Refusal := stepWith P (execAt P) s

/-- R2: the machine with the parameters `P`. -/
def coreAt (P : Params) : Host.Core where
  State := State
  Fault := Fault
  Refusal := Refusal
  step := stepAt P
  reset := State.resetAt P

end Sys2Proof.Machine
end

