-- ==== Sys2Proof/Safety.lean ====
section
/-! DEFINITION. The words claims are stated in: what is left unchanged, a state ready to fetch, the machine's invariant, and a
safe run. -/

namespace Sys2Proof.Machine

/-- Every register outside a list reads as before. -/
def SameRegsBut (rs : List Reg) (s t : State) : Prop := ∀ r, r ∉ rs → t.reg r = s.reg r

/-- Every memory word outside a list of addresses reads as before. -/
def SameMemBut (as : List Word) (s t : State) : Prop := ∀ a, a ∉ as → t.word a = s.word a

/-- Every memory word reads as before. -/
def SameMem (s t : State) : Prop := ∀ a, t.word a = s.word a

/-- What an instruction of plain registers and memory leaves alone: RUN, the output, the service in progress. -/
def SameLoop (s t : State) : Prop := t.run = s.run ∧ t.out = s.out ∧ t.svc = s.svc

/-- R4: the number that an `n`-bit field sign-extended to 16 bits is. -/
def sextNat {n : Nat} (f : BitVec n) : Nat := if f.toNat < 2 ^ (n - 1) then f.toNat else f.toNat + 0x10000 - 2 ^ n

/-- R19: the condition that fits a 16-bit value, as a number. -/
def FlagsFit (v : Word) (c : Cond) : Prop :=
  (c = .z ↔ v.toNat = 0) ∧ (c = .n ↔ 0x8000 ≤ v.toNat) ∧ (c = .p ↔ 0 < v.toNat ∧ v.toNat < 0x8000)

/-- A value written to one register, with the flags set from it, and nothing else. -/
def ResultOnly (dr : Reg) (v : Word) (s t : State) : Prop :=
  t.reg dr = v ∧ FlagsFit v t.cond ∧ SameRegsBut [dr] s t ∧ t.pc = s.pc ∧ SameMem s t ∧ SameLoop s t ∧ t.host = s.host

/-- PC moved, and nothing else. -/
def JumpOnly (target : Word) (s t : State) : Prop :=
  t.pc = target ∧ SameRegsBut [] s t ∧ t.cond = s.cond ∧ SameMem s t ∧ SameLoop s t ∧ t.host = s.host

/-- R34, R45, R83-R85: the word at `a` loaded into a register by one read made in `s`, the state after an earlier read of `s0`,
or `s0` itself. What the read did to memory and to the host's side stands; nothing else changes. -/
def LoadOnly (dr : Reg) (a : Word) (s0 s t : State) : Prop :=
  t.reg dr = (memRead a s).1 ∧ FlagsFit (memRead a s).1 t.cond ∧ SameRegsBut [dr] s0 t ∧ t.pc = s0.pc ∧
  SameMem (memRead a s).2 t ∧ t.host = (memRead a s).2.host ∧ SameLoop s0 t

/-- R37, R87-R89: a register stored at `a` in `s`, the state after an earlier read of `s0`, or `s0` itself. One word of memory
changes beside what that read did; nothing else changes. -/
def StoreOnly (sr : Reg) (a : Word) (s0 s t : State) : Prop :=
  t.word a = s0.reg sr ∧ SameMemBut [a] s t ∧ SameRegsBut [] s0 t ∧ t.cond = s0.cond ∧ t.pc = s0.pc ∧
  t.host = s.host ∧ SameLoop s0 t

/-- The next step is a fetch (R49): running, no service in progress (log 22), no abort raised (log 17). -/
def Ready (s : State) : Prop := s.run = .running ∧ s.svc = none ∧ s.host.abort = false

/-- R101, R102, R103: a fault record that fits the state it stands in. -/
def RecordFits (s : State) (r : FaultRecord) : Prop :=
  r.pc + 1 = s.pc ∧ s.svc = none ∧
  match r.cause with
  | .reservedOpcode => r.vector = none ∧ (r.instr.extractLsb' 12 4 = 0b1000 ∨ r.instr.extractLsb' 12 4 = 0b1101)
  | .unknownTrapVector =>
    r.instr.extractLsb' 12 4 = 0b1111 ∧ r.vector = some (r.instr.extractLsb' 0 8) ∧
    Params.spec.serviceOf (r.instr.extractLsb' 0 8) = none ∧ s.reg .r7 = s.pc

/-- The invariant of the machine: memory in canonical form; a fault record that fits; a service in progress only while running,
with the link register still holding the incremented PC (R90, R98). -/
def Invariant (s : State) : Prop :=
  s.mem.wf = true ∧ (∀ r, s.run = .faulted r → RecordFits s r) ∧
  (s.svc ≠ none → s.run = .running ∧ s.reg .r7 = s.pc)

/-- The run has not faulted. -/
def NotFaulted (s : State) : Prop := ∀ r, s.run ≠ .faulted r

/-- R21, R30: `k` steps from a state that fault nowhere and are stopped by nothing but HALT. -/
def SafeFor : Nat → State → Prop
  | 0, s => NotFaulted s
  | k + 1, s => NotFaulted s ∧ (s.run = .halted ∨ ∃ t, step s = .next t ∧ SafeFor k t)

end Sys2Proof.Machine
end

