-- ==== Sys2Proof/Certificates/Slice0/Obligations.lean ====
section
/-! DEFINITION. The statements for the provers, from the spec's numbered rules. In every statement about `exec`, `s` is the state
the handler sees: PC is the incremented PC (R12, R49). Where a statement names one of these numbers it rests on the spec's own
decision and has basis 'derived': opcodes and field positions D1 and D2 (logs 1 and 2), KBSR and KBDR at 0xFE00 and 0xFE02 D4
(log 4), the trap vectors D8 (log 8). -/

open Sys2Proof Sys2Proof.Machine

/-! ## The spec's own tables and loops, as the statements read them -/

/-- spec/opcode_table.json, a more specific row before the row it is a spelling of: mask, match, mnemonic, format. -/
def Sys2Proof.Spec.opcodeRows : List (Word × Word × String × String) :=
  [(0xF020, 0x1000, "ADD", "OPR"), (0xF020, 0x1020, "ADD", "OPI"), (0xF020, 0x5000, "AND", "OPR"),
   (0xF020, 0x5020, "AND", "OPI"), (0xF000, 0x9000, "NOT", "NOT"), (0xF000, 0x0000, "BR", "BR"),
   (0xF1C0, 0xC1C0, "RET", "JMP"), (0xF000, 0xC000, "JMP", "JMP"), (0xF800, 0x4800, "JSR", "JSR"),
   (0xF800, 0x4000, "JSRR", "JSRR"), (0xF000, 0x2000, "LD", "PCREL"), (0xF000, 0xA000, "LDI", "PCREL"),
   (0xF000, 0x6000, "LDR", "BASE"), (0xF000, 0xE000, "LEA", "PCREL")] ++
  [(0xF000, 0x3000, "ST", "PCREL"), (0xF000, 0xB000, "STI", "PCREL"), (0xF000, 0x7000, "STR", "BASE"),
   (0xF0FF, 0xF020, "GETC", "TRAP"), (0xF0FF, 0xF021, "OUT", "TRAP"), (0xF0FF, 0xF022, "PUTS", "TRAP"),
   (0xF0FF, 0xF023, "IN", "TRAP"), (0xF0FF, 0xF024, "PUTSP", "TRAP"), (0xF0FF, 0xF025, "HALT", "TRAP"),
   (0xF000, 0xF000, "TRAP", "TRAP"), (0xF000, 0x8000, "RESERVED_1000", "RSV"), (0xF000, 0xD000, "RESERVED_1101", "RSV")]

/-- The table row an instruction is: its mnemonic and format. -/
def Sys2Proof.Spec.rowOf : Instr → String × String
  | .addReg .. => ("ADD", "OPR")
  | .addImm .. => ("ADD", "OPI")
  | .andReg .. => ("AND", "OPR")
  | .andImm .. => ("AND", "OPI")
  | .not .. => ("NOT", "NOT")
  | .br .. => ("BR", "BR")
  | .jmp .. => ("JMP", "JMP")
  | .ret .. => ("RET", "JMP")
  | .jsr .. => ("JSR", "JSR")
  | .jsrr .. => ("JSRR", "JSRR")
  | .ld .. => ("LD", "PCREL")
  | .ldi .. => ("LDI", "PCREL")
  | .ldr .. => ("LDR", "BASE")
  | .lea .. => ("LEA", "PCREL")
  | .st .. => ("ST", "PCREL")
  | .sti .. => ("STI", "PCREL")
  | .str .. => ("STR", "BASE")
  | .trap .. => ("TRAP", "TRAP")
  | .getc .. => ("GETC", "TRAP")
  | .out .. => ("OUT", "TRAP")
  | .puts .. => ("PUTS", "TRAP")
  | .inChar .. => ("IN", "TRAP")
  | .putsp .. => ("PUTSP", "TRAP")
  | .halt .. => ("HALT", "TRAP")
  | .reserved1000 .. => ("RESERVED_1000", "RSV")
  | .reserved1101 .. => ("RESERVED_1101", "RSV")

/-- R7: the number of a register. -/
def Sys2Proof.Spec.regNumber : Reg → Nat
  | .r0 => 0 | .r1 => 1 | .r2 => 2 | .r3 => 3 | .r4 => 4 | .r5 => 5 | .r6 => 6 | .r7 => 7

/-- R20: the register whose new value sets the flags, for the operations R20 lists. -/
def Sys2Proof.Spec.flagSource : Instr → Option Reg
  | .addReg dr .. | .addImm dr .. | .andReg dr .. | .andImm dr .. | .not dr .. | .ld dr .. | .ldi dr .. | .ldr dr ..
  | .lea dr .. => some dr
  | .getc .. | .inChar .. => some .r0
  | .trap _ v => if Params.spec.serviceOf v = some .getc ∨ Params.spec.serviceOf v = some .inChar then some .r0 else none
  | .br .. | .jmp .. | .ret .. | .jsr .. | .jsrr .. | .st .. | .sti .. | .str .. | .out .. | .puts .. | .putsp .. | .halt ..
  | .reserved1000 .. | .reserved1101 .. => none

/-- R91: whether the instruction makes a blocking read. -/
def Sys2Proof.Spec.readsHost : Instr → Prop
  | .getc .. | .inChar .. => True
  | .trap _ v => Params.spec.serviceOf v = some .getc ∨ Params.spec.serviceOf v = some .inChar
  | _ => False

/-- R10's column "writes". -/
def Sys2Proof.Spec.regsWritten : Instr → List Reg
  | .addReg dr .. | .addImm dr .. | .andReg dr .. | .andImm dr .. | .not dr .. | .ld dr .. | .ldi dr .. | .ldr dr ..
  | .lea dr .. => [dr]
  | .jsr .. | .jsrr .. | .out .. | .puts .. | .putsp .. | .halt .. => [.r7]
  | .getc .. | .inChar .. => [.r7, .r0]
  | .trap _ v => if v = 0x20 ∨ v = 0x23 then [.r7, .r0] else [.r7]
  | .br .. | .jmp .. | .ret .. | .st .. | .sti .. | .str .. | .reserved1000 .. | .reserved1101 .. => []

/-- R13: the PC after the step, as a number; `s.pc` is the incremented PC. -/
def Sys2Proof.Spec.pcAfter (i : Instr) (s : State) : Nat :=
  match i with
  | .br nzp off9 =>
    if (nzp.getLsbD 2 ∧ s.cond = .n) ∨ (nzp.getLsbD 1 ∧ s.cond = .z) ∨ (nzp.getLsbD 0 ∧ s.cond = .p)
    then (s.pc.toNat + sextNat off9) % 65536 else s.pc.toNat
  | .jmp _ base _ => (s.reg base).toNat
  | .ret _ _ => (s.reg .r7).toNat
  | .jsr off11 => (s.pc.toNat + sextNat off11) % 65536
  | .jsrr _ base _ => if base = .r7 then s.pc.toNat else (s.reg base).toNat
  | _ => s.pc.toNat

/-- R91: the six vectors. -/
def Sys2Proof.Spec.isService (v : BitVec 8) : Prop := 0x20 ≤ v.toNat ∧ v.toNat ≤ 0x25

/-- R90: the state after the link write of TRAP. -/
def Sys2Proof.Spec.linked (s : State) : State := { s with regs := s.regs.write .r7 s.pc }

/-- The loop of R94 and R96 run to its end: `n` words read from `a` on, the last of them zero. -/
inductive Sys2Proof.Spec.StringRun (bytes : Word → List Byte) : Nat → Word → State → State → Prop
  | done {a : Word} {s : State} : (memRead a s).1 = 0x0000 → StringRun bytes 1 a s (memRead a s).2
  | more {n : Nat} {a : Word} {s t : State} : (memRead a s).1 ≠ 0x0000 →
      StringRun bytes n (a + 1) { (memRead a s).2 with out := (memRead a s).2.out ++ bytes (memRead a s).1 } t →
      StringRun bytes (n + 1) a s t

/-- The loop of R94 and R96 gone on for `n` words, none of them zero: the state and the address reached. -/
inductive Sys2Proof.Spec.StringGoesOn (bytes : Word → List Byte) : Nat → Word → State → State → Word → Prop
  | start {a : Word} {s : State} : StringGoesOn bytes 0 a s s a
  | more {n : Nat} {a b : Word} {s t : State} : (memRead a s).1 ≠ 0x0000 →
      StringGoesOn bytes n (a + 1) { (memRead a s).2 with out := (memRead a s).2.out ++ bytes (memRead a s).1 } t b →
      StringGoesOn bytes (n + 1) a s t b

/-- R94: the byte PUTS writes for a word, bits 7:0. -/
def Sys2Proof.Spec.putsOf (w : Word) : List Byte := [BitVec.ofNat 8 (w.toNat % 256)]

/-- R96: the bytes PUTSP writes for a word. -/
def Sys2Proof.Spec.putspOf (w : Word) : List Byte :=
  BitVec.ofNat 8 (w.toNat % 256) :: if w.toNat / 256 = 0 then [] else [BitVec.ofNat 8 (w.toNat / 256)]

/-- What TRAP and a service that writes no register and no flag leave alone: all but R7, memory, the output, RUN, the service in
progress and the host's side. -/
def Sys2Proof.Spec.LinkOnly (s t : State) : Prop :=
  t.reg .r7 = s.pc ∧ SameRegsBut [.r7] s t ∧ t.cond = s.cond ∧ t.pc = s.pc

open Sys2Proof.Spec

/-! ## Encoding -/

/-- R53, R51 and the worked words of 95_test_vectors.md: words written out from the encodings decode to what they stand for. -/
def Obligations.SpecWordsDecode : Prop :=
  decodeWord 0x1283 = .addReg .r1 .r2 0b00 .r3 ∧ decodeWord 0x129B = .addReg .r1 .r2 0b11 .r3 ∧
  decodeWord 0x147E = .addImm .r2 .r1 0b11110 ∧ decodeWord 0x5642 = .andReg .r3 .r1 0b00 .r2 ∧
  decodeWord 0x5270 = .andImm .r1 .r1 0b10000 ∧ decodeWord 0x997F = .not .r4 .r5 0b111111 ∧
  decodeWord 0x0403 = .br 0b010 3 ∧ decodeWord 0xC080 = .jmp 0 .r2 0 ∧ decodeWord 0xC1C0 = .ret 0 0 ∧
  decodeWord 0x4FFF = .jsr 0x7FF ∧ decodeWord 0x40C0 = .jsrr 0 .r3 0 ∧ decodeWord 0x2002 = .ld .r0 2 ∧
  decodeWord 0xA205 = .ldi .r1 5 ∧ decodeWord 0x64FF = .ldr .r2 .r3 0x3F ∧ decodeWord 0xE9FD = .lea .r4 0x1FD ∧
  decodeWord 0x3004 = .st .r0 4 ∧ decodeWord 0xBA01 = .sti .r5 1 ∧ decodeWord 0x7C5F = .str .r6 .r1 31 ∧
  decodeWord 0xF021 = .out 0 ∧ decodeWord 0xFF25 = .halt 0xF ∧ decodeWord 0xF026 = .trap 0 0x26 ∧
  decodeWord 0x8000 = .reserved1000 0 ∧ decodeWord 0xD123 = .reserved1101 0x123

/-- R66, R53: decoding the word of any well-formed instruction gives the instruction back, whatever follows the word, and under any
proper choice of R2's parameters. Which spelling of a word is the well-formed one is the model's form (log 27). -/
def Obligations.DecodeOfEncodeIsTheInstruction : Prop :=
  (∀ i rest, WellFormed i = true → decode (encode i :: rest) = .ok (i, rest)) ∧
  (∀ P i rest, P.wf = true → WellFormed i P = true → decode (encode i P :: rest) P = .ok (i, rest))

/-- R66: every word decodes to a well-formed instruction whose word it is, under any of R2's parameters. Which spelling of a word is
the well-formed one is the model's form (log 27). -/
def Obligations.EncodeOfDecodeIsTheWord : Prop :=
  (∀ w : Word, encode (decodeWord w) = w ∧ WellFormed (decodeWord w) = true) ∧
  (∀ P (w : Word), encode (decodeWord w P) P = w ∧ WellFormed (decodeWord w P) P = true)

/-- R51, R66: the decoder picks, for every word, the row of the opcode table whose fixed bits it has, a more specific row first.
Opcode numbers and field positions are the spec's own decision D1 (log 1). -/
def Obligations.DecodePicksTheTableRow : Prop :=
  ∀ w : Word, (opcodeRows.find? fun r => w &&& r.1 == r.2.1).map (fun r => r.2.2) = some (rowOf (decodeWord w))

/-- R52, R60: where each field of each format stands. The positions are the spec's own decision D1 (log 1). -/
def Obligations.FieldsStandWhereTheFormatsSay : Prop :=
  (∀ b, regNumber (regOfBits b) = b.toNat) ∧
  ∀ w : Word,
    let hiReg := regOfBits (w.extractLsb' 9 3)
    let midReg := regOfBits (w.extractLsb' 6 3)
    match decodeWord w with
    | .addReg dr sr1 ign sr2 | .andReg dr sr1 ign sr2 =>
      dr = hiReg ∧ sr1 = midReg ∧ ign = w.extractLsb' 3 2 ∧ sr2 = regOfBits (w.extractLsb' 0 3)
    | .addImm dr sr1 imm5 | .andImm dr sr1 imm5 => dr = hiReg ∧ sr1 = midReg ∧ imm5 = w.extractLsb' 0 5
    | .not r b off6 | .ldr r b off6 | .str r b off6 => r = hiReg ∧ b = midReg ∧ off6 = w.extractLsb' 0 6
    | .br nzp off9 => nzp = w.extractLsb' 9 3 ∧ off9 = w.extractLsb' 0 9
    | .jmp hi base lo => hi = w.extractLsb' 9 3 ∧ base = midReg ∧ lo = w.extractLsb' 0 6
    | .ret hi lo => hi = w.extractLsb' 9 3 ∧ midReg = .r7 ∧ lo = w.extractLsb' 0 6
    | .jsr off11 => off11 = w.extractLsb' 0 11
    | .jsrr hi base lo => hi = w.extractLsb' 9 2 ∧ base = midReg ∧ lo = w.extractLsb' 0 6
    | .ld r off9 | .ldi r off9 | .lea r off9 | .st r off9 | .sti r off9 => r = hiReg ∧ off9 = w.extractLsb' 0 9
    | .trap ign v => ign = w.extractLsb' 8 4 ∧ v = w.extractLsb' 0 8 ∧ ¬isService v
    | .getc ign | .out ign | .puts ign | .inChar ign | .putsp ign | .halt ign =>
      ign = w.extractLsb' 8 4 ∧ isService (w.extractLsb' 0 8)
    | .reserved1000 ign | .reserved1101 ign => ign = w.extractLsb' 0 12

/-- R61: bits that no field uses change nothing an instruction does. (An unknown vector and a reserved opcode record the fetched
word, these bits among them, R101.) That they are ignored is the spec's own decision D10 (log 10). -/
def Obligations.IgnoredBitsChangeNothing : Prop :=
  ∀ s : State,
    (∀ dr a b g h, exec (.addReg dr a g b) s = exec (.addReg dr a h b) s) ∧
    (∀ dr a b g h, exec (.andReg dr a g b) s = exec (.andReg dr a h b) s) ∧
    (∀ dr a g h, exec (.not dr a g) s = exec (.not dr a h) s) ∧
    (∀ b g h g' h', exec (.jmp g b h) s = exec (.jmp g' b h') s) ∧
    (∀ g h g' h', exec (.ret g h) s = exec (.ret g' h') s) ∧
    (∀ b g h g' h', exec (.jsrr g b h) s = exec (.jsrr g' b h') s) ∧
    (∀ g h, exec (.getc g) s = exec (.getc h) s ∧ exec (.out g) s = exec (.out h) s ∧ exec (.puts g) s = exec (.puts h) s ∧
      exec (.inChar g) s = exec (.inChar h) s ∧ exec (.putsp g) s = exec (.putsp h) s ∧ exec (.halt g) s = exec (.halt h) s) ∧
    (∀ g h v, isService v → exec (.trap g v) s = exec (.trap h v) s)

/-! ## The step -/

/-- R49: while RUN is Running, with no service in progress and no abort raised, a step fetches by MemRead at PC, increments PC
modulo 2^16, decodes and runs exactly one handler; from any other RUN no step is taken. That the fetch is the intercepting read,
which polls at KBSR, is the spec's own decision D7 (log 7); that a step with an abort raised or a service in progress makes no
fetch has the model's form (logs 17 and 22). R2: the same holds of the machine with its parameters taken as an argument, which at the
values the spec fixes is this machine (log 31). -/
def Obligations.StepRunsTheDecodedInstruction : Prop :=
  (∀ s, Ready s →
    step s = exec (decodeWord (memRead s.pc s).1) { (memRead s.pc s).2 with pc := BitVec.ofNat 16 ((s.pc.toNat + 1) % 65536) }) ∧
  (∀ s t, s.run ≠ .running → step s ≠ .next t) ∧
  (∀ P s, Ready s → stepAt P s =
    execAt P (decodeWord (memRead s.pc s P).1 P) { (memRead s.pc s P).2 with pc := BitVec.ofNat 16 ((s.pc.toNat + 1) % 65536) }) ∧
  (∀ P s t, s.run ≠ .running → stepAt P s ≠ .next t) ∧
  (∀ i s, execAt Params.spec i s = exec i s) ∧ (∀ s, stepAt Params.spec s = step s)

/-- R36, R49: away from KBSR, a step runs the instruction that the word stored at PC encodes, in the same state with PC + 1. R47:
a word that an ST puts at the address of the next instruction is what the next step runs. `Ready` has the model's form (logs 17
and 22), and the address of KBSR is D4 (log 4). -/
def Obligations.StepRunsTheStoredWord : Prop :=
  (∀ s i, Ready s → s.pc ≠ 0xFE00 → WellFormed i = true → s.word s.pc = encode i → step s = exec i { s with pc := s.pc + 1 }) ∧
  (∀ sr off9 s t, exec (.st sr off9) s = .next t → Ready s → eaPc off9 s = s.pc → s.pc ≠ 0xFE00 →
    step t = exec (decodeWord (s.reg sr)) { t with pc := s.pc + 1 })

/-- R38, R129: a fetch at KBSR polls and runs the fresh status word: a no-op where no character is pending, a ReservedOpcode fault
where one is. That the fetch polls is the spec's own decision D7 (log 7), the values are D5 and D6 (logs 5 and 6), and the fault
record of R101 is D17 (log 16). `Ready` has the model's form (logs 17 and 22). -/
def Obligations.FetchAtKbsrRunsTheFreshStatus : Prop :=
  ∀ s, Ready s → s.pc = 0xFE00 → ∃ t, step s = .next t ∧ t.pc = 0xFE01 ∧ SameRegsBut [] s t ∧ t.cond = s.cond ∧ t.out = s.out ∧
    SameMemBut [0xFE00, 0xFE02] s t ∧
    ((hostPoll s).1 = false → t.run = .running ∧ t.word 0xFE00 = 0x0000 ∧ t.word 0xFE02 = s.word 0xFE02) ∧
    ((hostPoll s).1 = true → t.run = .faulted ⟨.reservedOpcode, 0xFE00, 0x8000, none⟩ ∧ t.word 0xFE00 = 0x8000 ∧
      (t.word 0xFE02).toNat = (hostReadReady (hostPoll s).2).1.toNat)

/-- R21: RUN is Running at reset; Running goes to Halted only through the HALT service and to Faulted only on an illegal
instruction (a reserved opcode or an unknown vector, R102, R103); from Halted and Faulted no step is enabled. The reserved opcodes
and the vectors are the spec's own decisions D2, D8 and D9 (logs 2, 8 and 9). That a service in progress stands in `svc` is the
model's form (log 22). -/
def Obligations.RunStateChangesOnlyByHaltAndIllegalInstructions : Prop :=
  State.reset.run = .running ∧
  (∀ s t, s.run = .halted ∨ (∃ r, s.run = .faulted r) → step s ≠ .next t) ∧
  (∀ s t, step s = .next t → s.run = .running) ∧
  (∀ s t, step s = .next t → t.run = .halted →
    s.svc = none ∧ (memRead s.pc s).1.extractLsb' 12 4 = 0xF ∧ (memRead s.pc s).1.extractLsb' 0 8 = 0x25) ∧
  (∀ s t r, step s = .next t → t.run = .faulted r →
    s.svc = none ∧ ((memRead s.pc s).1.extractLsb' 12 4 = 0x8 ∨ (memRead s.pc s).1.extractLsb' 12 4 = 0xD ∨
      ((memRead s.pc s).1.extractLsb' 12 4 = 0xF ∧ ¬isService ((memRead s.pc s).1.extractLsb' 0 8))))

/-- R100: a step from Running that no abort stops always answers a next state: nothing is refused and no data ends a run.
R108, R105: where the host has raised its abort no next state follows, whatever else holds, and nothing the core does raises or
clears the signal; the form of the signal is the model's (D18, log 17). -/
def Obligations.RunningStepsAnswerNextUnlessAborted : Prop :=
  (∀ s, s.run = .running → s.host.abort = false → ∃ t, step s = .next t) ∧
  (∀ s, step (raiseAbort s) = .fault .hostAbort) ∧
  (∀ s t, step s = .next t → t.host.abort = s.host.abort)

/-! ## Numbers, registers and flags -/

/-- R4: sign extension of an `n`-bit field to 16 bits, as a number and bit by bit, for every width up to the word's. -/
def Obligations.SignExtensionOfFields : Prop :=
  ∀ n, 0 < n → n ≤ 16 → ∀ f : BitVec n,
    (sext16 f).toNat = (if f.toNat < 2 ^ (n - 1) then f.toNat else f.toNat + 0x10000 - 2 ^ n) ∧
    ∀ k, k < 16 → (sext16 f).getLsbD k = if k < n then f.getLsbD k else f.getLsbD (n - 1)

/-- R9: a register read returns the value of the last write to it, or 0 when none has occurred; writing one leaves the others. -/
def Obligations.RegisterReadsGiveTheLastWrite : Prop :=
  (∀ r, State.reset.reg r = 0x0000) ∧
  (∀ s r q v, (setReg r v s).reg q = if q = r then v else s.reg q)

/-- R19: `setcc(v)` sets Z for 0x0000, N where bit 15 is set, P otherwise, and nothing else. -/
def Obligations.SetccFollowsTheResult : Prop :=
  ∀ s v, FlagsFit v (setcc v s).cond ∧ ((setcc v s).cond = .n ↔ v ≠ 0x0000 ∧ v.getLsbD 15 = true) ∧
    setcc v s = { s with cond := (setcc v s).cond }

/-- R20: the flags are set, from the value written, after exactly ADD, AND, NOT, LD, LDI, LDR, LEA, and the GETC and IN services
(once the host yields the character); every other instruction, the link writes among them, leaves COND unchanged. The second
clause, a step in which the host yields no character, is the model's form of the hold (log 22). -/
def Obligations.FlagsAreSetByExactlyTheListedOperations : Prop :=
  ∀ i s t, exec i s = .next t →
    (flagSource i = none → t.cond = s.cond) ∧
    (∀ r, flagSource i = some r → readsHost i → (hostReadAttempt s).1 = none → t.cond = s.cond) ∧
    (∀ r, flagSource i = some r → ¬(readsHost i ∧ (hostReadAttempt s).1 = none) → FlagsFit (t.reg r) t.cond)

/-- R18: COND is read only by BR: no other instruction does anything else for another COND. -/
def Obligations.CondIsReadOnlyByBr : Prop :=
  ∀ i s c t, (∀ nzp off9, i ≠ .br nzp off9) → exec i s = .next t →
    ∃ u, exec i { s with cond := c } = .next u ∧ { u with cond := .z } = { t with cond := .z }

/-- R10's column "writes": no instruction changes a register that the table does not give it. The vectors of GETC and IN are D8
(log 8). -/
def Obligations.RegistersChangeOnlyAsTheTableSays : Prop :=
  ∀ i s t, exec i s = .next t → SameRegsBut (regsWritten i) s t

/-- R13: how each instruction leaves PC. (TRAP's and JSRR's rows are the spec's own decisions D13 and D12, logs 13 and 12.) Which
bit of BR's mask (R59, R76) is which flag's is D3 (log 3). -/
def Obligations.PcAfterEachInstruction : Prop :=
  ∀ i s t, exec i s = .next t → t.pc.toNat = pcAfter i s

/-- R35, R37, R99: no instruction but a store changes a memory word other than the two keyboard words. Where the two words stand
is D4 (log 4). -/
def Obligations.OnlyStoresWriteOrdinaryMemory : Prop :=
  ∀ i s t, exec i s = .next t → (∀ r o, i ≠ .st r o ∧ i ≠ .sti r o) → (∀ r b o, i ≠ .str r b o) →
    SameMemBut [0xFE00, 0xFE02] s t

/-- R24, R25, R36: the host is asked only by a read of KBSR and by GETC and IN: the operate, control and plain store instructions,
LEA, OUT and HALT leave the host's side as it is, and so do LD, LDI, LDR and STI where no address they read is KBSR. The address
of KBSR is D4 (log 4), the vectors D8 (log 8), and the host's side as data the model's form (log 21). -/
def Obligations.HostIsAskedOnlyByKeyboardReadsAndServices : Prop :=
  ∀ i s t, exec i s = .next t →
    (match i with
     | .addReg .. | .addImm .. | .andReg .. | .andImm .. | .not .. | .br .. | .jmp .. | .ret .. | .jsr .. | .jsrr .. | .lea ..
     | .st .. | .str .. | .out .. | .halt .. | .reserved1000 .. | .reserved1101 .. => True
     | .ld _ off9 => eaPc off9 s ≠ 0xFE00
     | .ldr _ base off6 => eaBase base off6 s ≠ 0xFE00
     | .ldi _ off9 => eaPc off9 s ≠ 0xFE00 ∧ s.word (eaPc off9 s) ≠ 0xFE00
     | .sti _ off9 => eaPc off9 s ≠ 0xFE00
     | .trap _ v => ¬isService v
     | .getc .. | .puts .. | .inChar .. | .putsp .. => False) →
    t.host = s.host

/-! ## Operate instructions -/

/-- R70: ADD, register form: its words, its result modulo 2^16, its flags, and that nothing else changes. Its words: D1 (log 1). -/
def Obligations.AddRegisterForm : Prop :=
  (∀ w : Word, w.extractLsb' 12 4 = 0b0001 → w.extractLsb' 5 1 = 0 → decodeWord w =
    .addReg (regOfBits (w.extractLsb' 9 3)) (regOfBits (w.extractLsb' 6 3)) (w.extractLsb' 3 2) (regOfBits (w.extractLsb' 0 3))) ∧
  ∀ dr sr1 g sr2 s, ∃ t v, exec (.addReg dr sr1 g sr2) s = .next t ∧ ResultOnly dr v s t ∧
    v.toNat = ((s.reg sr1).toNat + (s.reg sr2).toNat) % 65536

/-- R71: ADD, immediate form. Its words: D1 (log 1). -/
def Obligations.AddImmediateForm : Prop :=
  (∀ w : Word, w.extractLsb' 12 4 = 0b0001 → w.extractLsb' 5 1 = 1 → decodeWord w =
    .addImm (regOfBits (w.extractLsb' 9 3)) (regOfBits (w.extractLsb' 6 3)) (w.extractLsb' 0 5)) ∧
  ∀ dr sr1 imm5 s, ∃ t v, exec (.addImm dr sr1 imm5) s = .next t ∧ ResultOnly dr v s t ∧
    v.toNat = ((s.reg sr1).toNat + sextNat imm5) % 65536

/-- R72: AND, register form, bit by bit. Its words: D1 (log 1). -/
def Obligations.AndRegisterForm : Prop :=
  (∀ w : Word, w.extractLsb' 12 4 = 0b0101 → w.extractLsb' 5 1 = 0 → decodeWord w =
    .andReg (regOfBits (w.extractLsb' 9 3)) (regOfBits (w.extractLsb' 6 3)) (w.extractLsb' 3 2) (regOfBits (w.extractLsb' 0 3))) ∧
  ∀ dr sr1 g sr2 s, ∃ t v, exec (.andReg dr sr1 g sr2) s = .next t ∧ ResultOnly dr v s t ∧
    ∀ k, v.getLsbD k = ((s.reg sr1).getLsbD k && (s.reg sr2).getLsbD k)

/-- R73: AND, immediate form: bits 4:0 from the immediate, bits 15:5 by its sign bit. The sign extension is the spec's own
decision D11 (log 11). Its words: D1 (log 1). -/
def Obligations.AndImmediateForm : Prop :=
  (∀ w : Word, w.extractLsb' 12 4 = 0b0101 → w.extractLsb' 5 1 = 1 → decodeWord w =
    .andImm (regOfBits (w.extractLsb' 9 3)) (regOfBits (w.extractLsb' 6 3)) (w.extractLsb' 0 5)) ∧
  ∀ dr sr1 imm5 s, ∃ t v, exec (.andImm dr sr1 imm5) s = .next t ∧ ResultOnly dr v s t ∧
    ∀ k, v.getLsbD k = ((s.reg sr1).getLsbD k && (if k < 5 then imm5.getLsbD k else imm5.getLsbD 4))

/-- R74: NOT. Its words: D1 (log 1). -/
def Obligations.NotComplements : Prop :=
  (∀ w : Word, w.extractLsb' 12 4 = 0b1001 → decodeWord w =
    .not (regOfBits (w.extractLsb' 9 3)) (regOfBits (w.extractLsb' 6 3)) (w.extractLsb' 0 6)) ∧
  ∀ dr sr g s, ∃ t v, exec (.not dr sr g) s = .next t ∧ ResultOnly dr v s t ∧ v.toNat = 65535 - (s.reg sr).toNat

/-! ## Control transfer -/

/-- R76, R59: BR is taken exactly where the mask's n, z or p bit is that of COND. Its words: D1 (log 1). Which bit of the
mask is which flag's: D3 (log 3). -/
def Obligations.BrBranchesByTheMask : Prop :=
  (∀ w : Word, w.extractLsb' 12 4 = 0b0000 → decodeWord w = .br (w.extractLsb' 9 3) (w.extractLsb' 0 9)) ∧
  ∀ nzp off9 s, ∃ t, exec (.br nzp off9) s = .next t ∧
    JumpOnly (if (nzp.getLsbD 2 ∧ s.cond = .n) ∨ (nzp.getLsbD 1 ∧ s.cond = .z) ∨ (nzp.getLsbD 0 ∧ s.cond = .p)
      then BitVec.ofNat 16 (s.pc.toNat + sextNat off9) else s.pc) s t

/-- R63: a BR with no condition never branches, so every word 0x0000-0x01FF is a no-op (the opcode 0000 of BR is D1, log 1).
`Ready` has the model's form (logs 17 and 22), and the address of KBSR is D4 (log 4). -/
def Obligations.BrWithoutConditionIsANoOp : Prop :=
  ∀ s, Ready s → s.pc ≠ 0xFE00 → (s.word s.pc).toNat < 0x200 → step s = .next { s with pc := s.pc + 1 }

/-- R77, R78: JMP goes to the value of its base register, and RET is JMP through R7. Their words: D1 (log 1). -/
def Obligations.JmpAndRetGoToTheBase : Prop :=
  (∀ w : Word, w.extractLsb' 12 4 = 0b1100 → w.extractLsb' 6 3 ≠ 7 → decodeWord w =
    .jmp (w.extractLsb' 9 3) (regOfBits (w.extractLsb' 6 3)) (w.extractLsb' 0 6)) ∧
  (∀ w : Word, w.extractLsb' 12 4 = 0b1100 → w.extractLsb' 6 3 = 7 → decodeWord w =
    .ret (w.extractLsb' 9 3) (w.extractLsb' 0 6)) ∧ encode (.ret 0 0) = 0xC1C0 ∧
  ∀ hi base lo s,
    (∃ t, exec (.jmp hi base lo) s = .next t ∧ JumpOnly (s.reg base) s t) ∧
    (∃ t, exec (.ret hi lo) s = .next t ∧ JumpOnly (s.reg .r7) s t) ∧ exec (.ret hi lo) s = exec (.jmp hi .r7 lo) s

/-- R79: JSR links R7 to the incremented PC and goes PC-relative; COND is left alone (C1). Its words: D1 (log 1). -/
def Obligations.JsrLinksAndJumps : Prop :=
  (∀ w : Word, w.extractLsb' 11 5 = 0b01001 → decodeWord w = .jsr (w.extractLsb' 0 11)) ∧
  ∀ off11 s, ∃ t, exec (.jsr off11) s = .next t ∧ t.reg .r7 = s.pc ∧ t.pc.toNat = (s.pc.toNat + sextNat off11) % 65536 ∧
    SameRegsBut [.r7] s t ∧ t.cond = s.cond ∧ SameMem s t ∧ SameLoop s t ∧ t.host = s.host

/-- R80: JSRR links R7, then goes to its base, so JSRR R7 goes on at the next instruction. That the base is read after the link
write is the spec's own decision D12 (log 12). Its words: D1 (log 1). Under the other value of
JSRR_BASE_AFTER_LINK (U12) the base is read before it. -/
def Obligations.JsrrLinksThenReadsTheBase : Prop :=
  (∀ w : Word, w.extractLsb' 11 5 = 0b01000 → decodeWord w =
    .jsrr (w.extractLsb' 9 2) (regOfBits (w.extractLsb' 6 3)) (w.extractLsb' 0 6)) ∧
  (∀ hi base lo s, ∃ t, exec (.jsrr hi base lo) s = .next t ∧ t.reg .r7 = s.pc ∧
    t.pc = (if base = .r7 then s.pc else s.reg base) ∧
    SameRegsBut [.r7] s t ∧ t.cond = s.cond ∧ SameMem s t ∧ SameLoop s t ∧ t.host = s.host) ∧
  ∀ P hi base lo s, ∃ t, execAt P (.jsrr hi base lo) s = .next t ∧ t.reg .r7 = s.pc ∧
    t.pc = (if P.jsrrBaseAfterLink ∧ base = .r7 then s.pc else s.reg base)

/-! ## Memory -/

/-- R82, R33: the three address computations, modulo 2^16. The sign extension of the offsets of LDI, ST, STI and STR is the spec's
own decision D11 (log 11). -/
def Obligations.EffectiveAddressesWrap : Prop :=
  (∀ off9 s, (eaPc off9 s).toNat = (s.pc.toNat + sextNat off9) % 65536) ∧
  (∀ base off6 s, (eaBase base off6 s).toNat = ((s.reg base).toNat + sextNat off6) % 65536)

/-- R34, R36: a read of any address but KBSR has no side effect and returns the stored word, KBDR's too; a read of KBSR polls
first and returns the word the poll left there. The two addresses are parameters, held distinct as R3 asks. -/
def Obligations.ReadsInterceptOnlyKbsr : Prop :=
  (∀ P a s, a ≠ P.kbsrAddr → memRead a s P = (s.word a, s)) ∧
  (∀ P s, memRead P.kbsrAddr s P = ((keyboardPoll s P).word P.kbsrAddr, keyboardPoll s P)) ∧
  (∀ P s, P.kbsrAddr ≠ P.kbdrAddr → memRead P.kbdrAddr s P = (s.word P.kbdrAddr, s))

/-- R35: the keyboard poll, whatever proper values its parameters have. Where the two words stand is D4 (log 4), the status word's
value and the widening of the character are the spec's own decisions D5 and D6 (logs 5 and 6), and the host's side as data is the
model's form (log 21). -/
def Obligations.KeyboardPollLatchesOrClears : Prop :=
  Params.spec.kbsrAddr = 0xFE00 ∧ Params.spec.kbdrAddr = 0xFE02 ∧ Params.spec.kbsrReady = 0x8000 ∧
  ∀ P s, P.wf = true → SameRegsBut [] s (keyboardPoll s P) ∧ (keyboardPoll s P).pc = s.pc ∧ (keyboardPoll s P).cond = s.cond ∧
    SameLoop s (keyboardPoll s P) ∧ SameMemBut [P.kbsrAddr, P.kbdrAddr] s (keyboardPoll s P) ∧
    ((hostPoll s).1 = true → (keyboardPoll s P).word P.kbsrAddr = P.kbsrReady ∧
      ((keyboardPoll s P).word P.kbdrAddr).toNat = (hostReadReady (hostPoll s).2).1.toNat ∧
      (keyboardPoll s P).host = (hostReadReady (hostPoll s).2).2.host) ∧
    ((hostPoll s).1 = false → (keyboardPoll s P).word P.kbsrAddr = 0x0000 ∧
      (keyboardPoll s P).word P.kbdrAddr = s.word P.kbdrAddr ∧ (keyboardPoll s P).host = (hostPoll s).2.host)

/-- R24, R25: the host's calls give the answers supplied in advance, in order, each of them once; an attempt of a blocking read
finds no character while the host stalls. How the host's side is held is the model's (log 21). -/
def Obligations.HostAnswersComeInOrder : Prop :=
  (∀ s b rest, s.host.polls = b :: rest → hostPoll s = (b, { s with host := { s.host with polls := rest } })) ∧
  (∀ s c rest, s.host.chars = c :: rest → hostReadReady s = (c, { s with host := { s.host with chars := rest } })) ∧
  (∀ s c rest, s.host.stall = 0 → s.host.chars = c :: rest →
    hostReadAttempt s = (some c, { s with host := { s.host with chars := rest } })) ∧
  (∀ s k, s.host.stall = k + 1 → hostReadAttempt s = (none, { s with host := { s.host with stall := k } }))

/-- R37: a write stores at its address, KBSR and KBDR too, with no interception and no other effect; the next read of KBSR
overwrites a word stored there by its poll, so that nothing of it is left. That nothing is left after a poll that finds a
character rests on the ready word replacing all 16 bits, the spec's own decision D5 (log 5). -/
def Obligations.WritesStoreUnconditionally : Prop :=
  ∀ P s a v, (memWrite a v s).word a = v ∧ SameMemBut [a] s (memWrite a v s) ∧
    memWrite a v s = { s with mem := (memWrite a v s).mem } ∧
    (memRead P.kbsrAddr (memWrite P.kbsrAddr v s) P).1 = (memRead P.kbsrAddr s P).1 ∧
    SameMem (memRead P.kbsrAddr s P).2 (memRead P.kbsrAddr (memWrite P.kbsrAddr v s) P).2

/-- R31, R28: memories in canonical form that read alike everywhere are the same data (the form is the model's, log 24). -/
def Obligations.CanonicalMemoriesAreDeterminedByTheirWords : Prop :=
  ∀ m n : Memory, m.wf = true → n.wf = true → (∀ a : Word, m.read a.toNat = n.read a.toNat) → m = n

/-- R83: LD, with the poll where the address is KBSR and without it anywhere else. Its words: D1 (log 1). The address of KBSR and
the value of its ready word are D4 and D5 (logs 4 and 5). -/
def Obligations.LdLoadsPcRelative : Prop :=
  (∀ w : Word, w.extractLsb' 12 4 = 0b0010 → decodeWord w = .ld (regOfBits (w.extractLsb' 9 3)) (w.extractLsb' 0 9)) ∧
  ∀ dr off9 s, ∃ t, exec (.ld dr off9) s = .next t ∧ LoadOnly dr (eaPc off9 s) s s t ∧
    (eaPc off9 s).toNat = (s.pc.toNat + sextNat off9) % 65536 ∧
    (eaPc off9 s ≠ 0xFE00 → ResultOnly dr (s.word (eaPc off9 s)) s t) ∧
    (eaPc off9 s = 0xFE00 → t.reg dr = (if (hostPoll s).1 then 0x8000 else 0x0000) ∧ t.cond = (if (hostPoll s).1 then .n else .z))

/-- R84: LDI reads the pointer and then the data, each by MemRead. The sign extension is the spec's own decision D11 (log 11). Its
words: D1 (log 1). The address of KBSR is D4 (log 4). -/
def Obligations.LdiLoadsThroughThePointer : Prop :=
  (∀ w : Word, w.extractLsb' 12 4 = 0b1010 → decodeWord w = .ldi (regOfBits (w.extractLsb' 9 3)) (w.extractLsb' 0 9)) ∧
  ∀ dr off9 s, ∃ t, exec (.ldi dr off9) s = .next t ∧
    LoadOnly dr (memRead (eaPc off9 s) s).1 s (memRead (eaPc off9 s) s).2 t ∧
    (eaPc off9 s ≠ 0xFE00 → s.word (eaPc off9 s) ≠ 0xFE00 → ResultOnly dr (s.word (s.word (eaPc off9 s))) s t)

/-- R85: LDR; the base is read before the destination is written. Its words: D1 (log 1). The address of KBSR is D4 (log 4). -/
def Obligations.LdrLoadsBasePlusOffset : Prop :=
  (∀ w : Word, w.extractLsb' 12 4 = 0b0110 → decodeWord w =
    .ldr (regOfBits (w.extractLsb' 9 3)) (regOfBits (w.extractLsb' 6 3)) (w.extractLsb' 0 6)) ∧
  ∀ dr base off6 s, ∃ t, exec (.ldr dr base off6) s = .next t ∧ LoadOnly dr (eaBase base off6 s) s s t ∧
    (eaBase base off6 s).toNat = ((s.reg base).toNat + sextNat off6) % 65536 ∧
    (eaBase base off6 s ≠ 0xFE00 → ResultOnly dr (s.word (eaBase base off6 s)) s t)

/-- R86: LEA writes the address itself, sets the flags and reads no memory, at KBSR either. Its words: D1 (log 1). -/
def Obligations.LeaWritesTheAddress : Prop :=
  (∀ w : Word, w.extractLsb' 12 4 = 0b1110 → decodeWord w = .lea (regOfBits (w.extractLsb' 9 3)) (w.extractLsb' 0 9)) ∧
  ∀ dr off9 s, ∃ t v, exec (.lea dr off9) s = .next t ∧ ResultOnly dr v s t ∧
    v.toNat = (s.pc.toNat + sextNat off9) % 65536

/-- R87, R89: ST and STR store their register at the address the model's own address computation gives, and nothing else, at KBSR
and KBDR too. The sign extension is the spec's own decision D11 (log 11). Their words: D1 (log 1). -/
def Obligations.StAndStrStore : Prop :=
  (∀ w : Word, w.extractLsb' 12 4 = 0b0011 → decodeWord w = .st (regOfBits (w.extractLsb' 9 3)) (w.extractLsb' 0 9)) ∧
  (∀ w : Word, w.extractLsb' 12 4 = 0b0111 → decodeWord w =
    .str (regOfBits (w.extractLsb' 9 3)) (regOfBits (w.extractLsb' 6 3)) (w.extractLsb' 0 6)) ∧
  (∀ sr off9 s, ∃ t, exec (.st sr off9) s = .next t ∧ ∀ a, a = eaPc off9 s → StoreOnly sr a s s t) ∧
  (∀ sr base off6 s, ∃ t, exec (.str sr base off6) s = .next t ∧ ∀ a, a = eaBase base off6 s → StoreOnly sr a s s t)

/-- R88: STI reads its pointer by MemRead, with its poll at KBSR, and then stores plainly. The sign extension is the spec's own
decision D11 (log 11). Its words: D1 (log 1). The address of KBSR is D4 (log 4). -/
def Obligations.StiStoresThroughThePointer : Prop :=
  (∀ w : Word, w.extractLsb' 12 4 = 0b1011 → decodeWord w = .sti (regOfBits (w.extractLsb' 9 3)) (w.extractLsb' 0 9)) ∧
  ∀ sr off9 s, ∃ t, exec (.sti sr off9) s = .next t ∧
    (∀ a, a = (memRead (eaPc off9 s) s).1 → StoreOnly sr a s (memRead (eaPc off9 s) s).2 t) ∧
    (eaPc off9 s ≠ 0xFE00 → StoreOnly sr (s.word (eaPc off9 s)) s s t)

/-! ## TRAP and the services -/

/-- R90, R91: TRAP links R7 and runs the service its vector selects, so that it is one instruction with that service's own row.
The vectors are the spec's own decision D8 (log 8). That PC stays is D13 (log 13), and where the keyboard words stand D4 (log 4).
-/
def Obligations.TrapRunsTheServiceOfItsVector : Prop :=
  (∀ w : Word, w.extractLsb' 12 4 = 0b1111 → ¬isService (w.extractLsb' 0 8) →
    decodeWord w = .trap (w.extractLsb' 8 4) (w.extractLsb' 0 8)) ∧
  (∀ w : Word, w.extractLsb' 12 4 = 0b1111 → isService (w.extractLsb' 0 8) → ∀ s,
    exec (decodeWord w) s = exec (.trap (w.extractLsb' 8 4) (w.extractLsb' 0 8)) s) ∧
  (∀ g s, exec (.trap g 0x20) s = exec (.getc g) s ∧ exec (.trap g 0x21) s = exec (.out g) s ∧
    exec (.trap g 0x22) s = exec (.puts g) s ∧ exec (.trap g 0x23) s = exec (.inChar g) s ∧
    exec (.trap g 0x24) s = exec (.putsp g) s ∧ exec (.trap g 0x25) s = exec (.halt g) s) ∧
  ∀ g v s, ∃ t, exec (.trap g v) s = .next t ∧ t.reg .r7 = s.pc ∧ t.pc = s.pc ∧
    (¬(v = 0x20 ∨ v = 0x23) → LinkOnly s t) ∧ SameMemBut [0xFE00, 0xFE02] s t

/-- R92: GETC with a character the host yields. The widening of the character is the spec's own decision D6 (log 6). The host's
side as data is the model's form (logs 21 and 22). -/
def Obligations.GetcReadsOneCharacter : Prop :=
  ∀ g s c, (hostReadAttempt s).1 = some c → ∃ t, exec (.getc g) s = .next t ∧ (t.reg .r0).toNat = c.toNat ∧
    t.cond = (if c = 0 then .z else .p) ∧ t.reg .r7 = s.pc ∧ SameRegsBut [.r0, .r7] s t ∧ t.pc = s.pc ∧ SameMem s t ∧
    t.out = s.out ∧ t.run = s.run ∧ t.svc = none ∧ t.host = (hostReadAttempt s).2.host

/-- R95: IN writes the prompt, reads a character the host yields, echoes it and writes R0 and the flags. The prompt is an open
parameter (D15, log 15) and the widening the spec's own decision D6 (log 6). The host's side as data is the model's form (logs 21
and 22). -/
def Obligations.InPromptsReadsAndEchoes : Prop :=
  ∀ g s c, (hostReadAttempt s).1 = some c → ∃ t, exec (.inChar g) s = .next t ∧ (t.reg .r0).toNat = c.toNat ∧
    t.cond = (if c = 0 then .z else .p) ∧ t.reg .r7 = s.pc ∧ SameRegsBut [.r0, .r7] s t ∧ t.pc = s.pc ∧ SameMem s t ∧
    t.out = s.out ++ Config.inPrompt ++ [c] ∧ t.run = s.run ∧ t.svc = none ∧ t.host = (hostReadAttempt s).2.host

/-- R98, R100 (d): while the host yields no character GETC and IN hold, the link write and IN's prompt done, with R0 and the flags
as they were; each later step tries again with no fetch and no second prompt, and ends the service when the character is there.
That a hold takes model steps is the model's (log 22). The widening of the character is the spec's own decision D6 (log 6), and
the prompt an open parameter (D15, log 15). -/
def Obligations.GetcAndInHoldUntilTheCharacter : Prop :=
  (∀ g s, (hostReadAttempt s).1 = none → ∃ t u, exec (.getc g) s = .next t ∧ exec (.inChar g) s = .next u ∧
    t.svc = some .getc ∧ u.svc = some .inChar ∧ LinkOnly s t ∧ LinkOnly s u ∧ SameMem s t ∧ SameMem s u ∧
    t.out = s.out ∧ u.out = s.out ++ Config.inPrompt ∧ t.run = s.run ∧ u.run = s.run) ∧
  (∀ s, s.run = .running → s.host.abort = false → s.svc = some .getc ∨ s.svc = some .inChar →
    (hostReadAttempt s).1 = none → step s = .next { s with host := (hostReadAttempt s).2.host }) ∧
  (∀ s c, s.run = .running → s.host.abort = false → s.svc = some .getc ∨ s.svc = some .inChar →
    (hostReadAttempt s).1 = some c → ∃ t, step s = .next t ∧ (t.reg .r0).toNat = c.toNat ∧
      t.cond = (if c = 0 then .z else .p) ∧ SameRegsBut [.r0] s t ∧ t.pc = s.pc ∧ SameMem s t ∧ t.run = .running ∧
      t.svc = none ∧ (s.svc = some .getc → t.out = s.out) ∧ (s.svc = some .inChar → t.out = s.out ++ [c]))

/-- R93: OUT writes bits 7:0 of R0 and changes nothing else but the link register of TRAP. -/
def Obligations.OutWritesTheLowByte : Prop :=
  ∀ g s, ∃ t, exec (.out g) s = .next t ∧ t.out = s.out ++ [BitVec.ofNat 8 ((s.reg .r0).toNat % 256)] ∧ LinkOnly s t ∧
    SameMem s t ∧ t.run = s.run ∧ t.svc = s.svc ∧ t.host = s.host

/-- R94, R96: PUTS and PUTSP run the loop of their rule to the zero word, every word read by MemRead. The reads' polling, PUTS's
byte and PUTSP's zero low byte are the spec's own decisions and inferences (D7, D14, logs 7 and 14). A string of more than 65536
words takes further model steps (log 23). Where the keyboard words stand is D4 (log 4). -/
def Obligations.StringServicesRunToTheZeroWord : Prop :=
  (∀ g s n u, n ≤ 65536 → StringRun putsOf n (s.reg .r0) (linked s) u → ∃ t, exec (.puts g) s = .next t ∧
    LinkOnly s t ∧ t.out = u.out ∧ t.mem = u.mem ∧ t.host = u.host ∧ t.run = s.run ∧ t.svc = none ∧
    SameMemBut [0xFE00, 0xFE02] s t) ∧
  (∀ g s n u, n ≤ 65536 → StringRun putspOf n (s.reg .r0) (linked s) u → ∃ t, exec (.putsp g) s = .next t ∧
    LinkOnly s t ∧ t.out = u.out ∧ t.mem = u.mem ∧ t.host = u.host ∧ t.run = s.run ∧ t.svc = none ∧
    SameMemBut [0xFE00, 0xFE02] s t)

/-- R94: a string of words in memory that ends in a zero word and does not lie over KBSR is written out word by word, one byte
each, wherever it stands, across the top of memory too. The byte is the spec's own decision D14 (log 14). The address of KBSR is
D4 (log 4). -/
def Obligations.PutsWritesTheStringInMemory : Prop :=
  ∀ g s (ws : List Word), ws.length < 65536 → (0x0000 : Word) ∉ ws →
    (∀ k, k ≤ ws.length → s.reg .r0 + BitVec.ofNat 16 k ≠ 0xFE00) →
    (∀ k, (h : k < ws.length) → s.word (s.reg .r0 + BitVec.ofNat 16 k) = ws[k]) →
    s.word (s.reg .r0 + BitVec.ofNat 16 ws.length) = 0x0000 →
    ∃ t, exec (.puts g) s = .next t ∧ t.out = s.out ++ ws.map (fun w => BitVec.ofNat 8 (w.toNat % 256)) ∧ LinkOnly s t ∧
      SameMem s t ∧ t.run = s.run ∧ t.svc = none ∧ t.host = s.host

/-- R129: PUTS and PUTSP over 65536 words none of which reads zero stay in progress at the address reached, and a step that finds
one in progress carries it on, with no fetch: to its zero word where that comes within 65536 words, else to the address reached,
still in progress, so that a string with no zero word never ends. That such a string takes several model steps is the model's
(log 23). -/
def Obligations.LongStringsStayInProgress : Prop :=
  (∀ g s u b, StringGoesOn putsOf 65536 (s.reg .r0) (linked s) u b →
    ∃ t, exec (.puts g) s = .next t ∧ t = { u with svc := some (.puts b) }) ∧
  (∀ g s u b, StringGoesOn putspOf 65536 (s.reg .r0) (linked s) u b →
    ∃ t, exec (.putsp g) s = .next t ∧ t = { u with svc := some (.putsp b) }) ∧
  (∀ s a u b, s.run = .running → s.host.abort = false → s.svc = some (.puts a) → StringGoesOn putsOf 65536 a s u b →
    step s = .next { u with svc := some (.puts b) }) ∧
  (∀ s a u b, s.run = .running → s.host.abort = false → s.svc = some (.putsp a) → StringGoesOn putspOf 65536 a s u b →
    step s = .next { u with svc := some (.putsp b) }) ∧
  (∀ s a n u, s.run = .running → s.host.abort = false → s.svc = some (.puts a) → n ≤ 65536 → StringRun putsOf n a s u →
    step s = .next { u with svc := none }) ∧
  (∀ s a n u, s.run = .running → s.host.abort = false → s.svc = some (.putsp a) → n ≤ 65536 → StringRun putspOf n a s u →
    step s = .next { u with svc := none })

/-- R97: HALT writes the notice and stops the machine at the incremented PC. The notice is an open parameter (D16, log 15). -/
def Obligations.HaltStopsTheMachine : Prop :=
  ∀ g s, ∃ t, exec (.halt g) s = .next t ∧ t.run = .halted ∧ t.out = s.out ++ Config.haltNotice ∧ LinkOnly s t ∧
    SameMem s t ∧ t.svc = s.svc ∧ t.host = s.host ∧ (∀ u, step t ≠ .next u)

/-- R103, R101: a vector that names no service faults after the link write: RUN holds the record and nothing else changes. The
fault and its record are the spec's own decisions D9 and D17 (logs 9 and 16). The vectors are D8 (log 8). -/
def Obligations.UnknownTrapVectorFaults : Prop :=
  ∀ g v s, ¬isService v → ∃ t, exec (.trap g v) s = .next t ∧
    t.run = .faulted ⟨.unknownTrapVector, s.pc - 1, 0xF#4 ++ g ++ v, some v⟩ ∧ LinkOnly s t ∧ SameMem s t ∧
    t.out = s.out ∧ t.svc = s.svc ∧ t.host = s.host

/-- R102, R101: the reserved opcodes fault, whatever bits 11:0 hold: RUN holds the record and nothing else changes. The opcodes and
the record are the spec's own decisions D2 and D17 (logs 2 and 16). -/
def Obligations.ReservedOpcodesFault : Prop :=
  (∀ w : Word, w.extractLsb' 12 4 = 0b1000 → decodeWord w = .reserved1000 (w.extractLsb' 0 12)) ∧
  (∀ w : Word, w.extractLsb' 12 4 = 0b1101 → decodeWord w = .reserved1101 (w.extractLsb' 0 12)) ∧
  ∀ g s,
    exec (.reserved1000 g) s = .next { s with run := .faulted ⟨.reservedOpcode, s.pc - 1, 0x8#4 ++ g, none⟩ } ∧
    exec (.reserved1101 g) s = .next { s with run := .faulted ⟨.reservedOpcode, s.pc - 1, 0xD#4 ++ g, none⟩ }

/-- R101, R106: a fault found by a step records the address the instruction was fetched from and the word fetched there. Memory
and the host's side are as the fetch's read left them. The record is the spec's own decision D17 (log 16). -/
def Obligations.FaultRecordNamesTheFetchedInstruction : Prop :=
  ∀ s t r, step s = .next t → t.run = .faulted r →
    r.pc = s.pc ∧ r.instr = (memRead s.pc s).1 ∧ t.pc = s.pc + 1 ∧ t.cond = s.cond ∧ t.out = s.out ∧
    SameMem (memRead s.pc s).2 t ∧ t.host = (memRead s.pc s).2.host ∧ t.svc = none ∧
    (r.cause = .unknownTrapVector → r.vector = some (r.instr.extractLsb' 0 8) ∧ t.reg .r7 = t.pc ∧ SameRegsBut [.r7] s t) ∧
    (r.cause = .reservedOpcode → r.vector = none ∧ SameRegsBut [] s t)

/-! ## Reset, boot and the whole machine -/

/-- R28: the reset values of every piece of state the spec gives. The start address 0x3000 is the spec's own decision D22 (log
20), and the empty output its inference from R26. R2: with another
PC_START only PC differs. -/
def Obligations.ResetState : Prop :=
  (∀ r, State.reset.reg r = 0x0000) ∧ State.reset.pc = 0x3000 ∧ State.reset.cond = .z ∧ condCode .z = 0b010 ∧
  (∀ a, State.reset.word a = 0x0000) ∧ State.reset.run = .running ∧ State.reset.out = [] ∧
  (∀ P, State.resetAt P = { State.reset with pc := P.pcStart }) ∧ State.resetAt Params.spec = State.reset

/-- R118, R119: an image's first word is its origin and the words after it are stored from there on, big-endian; words that would
land above 0xFFFF are discarded; every other word of memory is left. That a trailing odd byte is ignored and an image of exactly 2
bytes loads no word is the spec's own decision D19 in R122 (log 18). -/
def Obligations.ImageLoadsFromItsOrigin : Prop :=
  ∀ (b0 b1 : Byte) (data : List Byte) (m : Memory), ∃ m', loadImage (b0 :: b1 :: data) m = .ok m' ∧
    ∀ a : Word, (m'.read a.toNat) =
      (if h : b0.toNat * 256 + b1.toNat ≤ a.toNat ∧ 2 * (a.toNat - (b0.toNat * 256 + b1.toNat)) + 1 < data.length then
        data[2 * (a.toNat - (b0.toNat * 256 + b1.toNat))] ++ data[2 * (a.toNat - (b0.toNat * 256 + b1.toNat)) + 1]
       else m.read a.toNat)

/-- R116, R117, R120, R122: the core starts from the reset state with only memory changed by the images, loaded in order; with no
image, or one too short, it is not entered. What a short image does is the spec's own decision D19 (log 18). The canonical form of
memory is the model's (log 24). -/
def Obligations.BootLoadsTheImagesInOrder : Prop :=
  boot [] = .error .noImage ∧
  (∀ (images : List (List Byte)) (b : List Byte), b ∈ images → b.length < 2 → ∀ s, boot images ≠ .ok s) ∧
  (∀ images, images ≠ [] → (∀ b ∈ images, 2 ≤ b.length) → ∃ s, boot images = .ok s) ∧
  (∀ images s, boot images = .ok s → s = { State.reset with mem := s.mem } ∧ s.mem.wf = true ∧
    loadImages images State.reset.mem = .ok s.mem) ∧
  (∀ xs b m m1, loadImages xs m = .ok m1 → loadImages (xs ++ [b]) m = loadImage b m1)

/-- The machine's invariant holds at reset. Its form is the model's (logs 16, 22, 23 and 24). -/
def Obligations.ResetMeetsTheInvariant : Prop := Invariant State.reset

/-- From every state that meets it, a step keeps the invariant: memory in canonical form; a fault record that fits the state
(R101: the faulting instruction stands at PC - 1, its cause agrees with its word and its vector); a service in progress only while
running, with R7 still holding the incremented PC (R90, R98). Its form is the model's (logs 16, 22, 23 and 24). -/
def Obligations.EveryStepKeepsTheInvariant : Prop :=
  ∀ s t, Invariant s → step s = .next t → Invariant t

/-- R26: OUT only grows: every step leaves it with what it held, then what the step wrote; only OUT, PUTS, IN, PUTSP and HALT
write. The vectors are D8 (log 8). -/
def Obligations.OutputOnlyGrows : Prop :=
  (∀ s t, step s = .next t → ∃ bs, t.out = s.out ++ bs) ∧
  (∀ i s t, exec i s = .next t → t.out ≠ s.out →
    (rowOf i).2 = "TRAP" ∧ (rowOf i).1 ≠ "GETC" ∧ (∀ g v, i = .trap g v → isService v ∧ v ≠ 0x20))
end

