-- ==== Sys2Proof/Laws/Decode.lean ====
section
/-! SUPPORT. The small laws of the decoder's fields: a field of fields put side by side is one of them, and a register and its
index agree. -/

namespace Sys2Proof

/-- A field that lies in the lower part is a field of that part. -/
theorem field_low {n m : Nat} (x : BitVec n) (y : BitVec m) (lo len : Nat) (h : lo + len ≤ m) :
    (x ++ y).extractLsb' lo len = y.extractLsb' lo len := by
  apply BitVec.eq_of_getElem_eq
  intro i hi
  simp [BitVec.getLsbD_append, show lo + i < m by omega]

/-- A field that lies in the upper part is a field of that part. -/
theorem field_high {n m : Nat} (x : BitVec n) (y : BitVec m) (lo len : Nat) (h : m ≤ lo) :
    (x ++ y).extractLsb' lo len = x.extractLsb' (lo - m) len := by
  apply BitVec.eq_of_getElem_eq
  intro i hi
  simp [BitVec.getLsbD_append, show ¬lo + i < m by omega, show lo + i - m = lo - m + i by omega]

/-- R60: the index of a register selects it. -/
@[simp] theorem regOfBits_bitsOfReg (r : Reg) : regOfBits (bitsOfReg r) = r := by cases r <;> rfl

/-- R60: every index is that of the register it selects. -/
@[simp] theorem bitsOfReg_regOfBits (b : BitVec 3) : bitsOfReg (regOfBits b) = b := by revert b; decide

end Sys2Proof
end

