-- ==== Sys2Proof/Laws/State.lean ====
section
/-! SUPPORT. What each update of the state does to each field, true by definition, so that no proof unfolds a record update. -/

namespace Sys2Proof.Machine

variable (s : State)

@[simp] theorem setReg_regs (r : Reg) (v : Word) : (setReg r v s).regs = s.regs.write r v := rfl
@[simp] theorem setReg_pc (r : Reg) (v : Word) : (setReg r v s).pc = s.pc := rfl
@[simp] theorem setReg_cond (r : Reg) (v : Word) : (setReg r v s).cond = s.cond := rfl
@[simp] theorem setReg_mem (r : Reg) (v : Word) : (setReg r v s).mem = s.mem := rfl
@[simp] theorem setReg_run (r : Reg) (v : Word) : (setReg r v s).run = s.run := rfl
@[simp] theorem setReg_out (r : Reg) (v : Word) : (setReg r v s).out = s.out := rfl
@[simp] theorem setReg_svc (r : Reg) (v : Word) : (setReg r v s).svc = s.svc := rfl
@[simp] theorem setReg_host (r : Reg) (v : Word) : (setReg r v s).host = s.host := rfl

@[simp] theorem setPc_regs (t : Word) : (setPc t s).regs = s.regs := rfl
@[simp] theorem setPc_pc (t : Word) : (setPc t s).pc = t := rfl
@[simp] theorem setPc_cond (t : Word) : (setPc t s).cond = s.cond := rfl
@[simp] theorem setPc_mem (t : Word) : (setPc t s).mem = s.mem := rfl
@[simp] theorem setPc_run (t : Word) : (setPc t s).run = s.run := rfl
@[simp] theorem setPc_out (t : Word) : (setPc t s).out = s.out := rfl
@[simp] theorem setPc_svc (t : Word) : (setPc t s).svc = s.svc := rfl
@[simp] theorem setPc_host (t : Word) : (setPc t s).host = s.host := rfl

@[simp] theorem setcc_regs (v : Word) : (setcc v s).regs = s.regs := rfl
@[simp] theorem setcc_pc (v : Word) : (setcc v s).pc = s.pc := rfl
@[simp] theorem setcc_cond (v : Word) : (setcc v s).cond = condOf v := rfl
@[simp] theorem setcc_mem (v : Word) : (setcc v s).mem = s.mem := rfl
@[simp] theorem setcc_run (v : Word) : (setcc v s).run = s.run := rfl
@[simp] theorem setcc_out (v : Word) : (setcc v s).out = s.out := rfl
@[simp] theorem setcc_svc (v : Word) : (setcc v s).svc = s.svc := rfl
@[simp] theorem setcc_host (v : Word) : (setcc v s).host = s.host := rfl

@[simp] theorem memWrite_regs (a v : Word) : (memWrite a v s).regs = s.regs := rfl
@[simp] theorem memWrite_pc (a v : Word) : (memWrite a v s).pc = s.pc := rfl
@[simp] theorem memWrite_cond (a v : Word) : (memWrite a v s).cond = s.cond := rfl
@[simp] theorem memWrite_mem (a v : Word) : (memWrite a v s).mem = s.mem.write a.toNat v := rfl
@[simp] theorem memWrite_run (a v : Word) : (memWrite a v s).run = s.run := rfl
@[simp] theorem memWrite_out (a v : Word) : (memWrite a v s).out = s.out := rfl
@[simp] theorem memWrite_svc (a v : Word) : (memWrite a v s).svc = s.svc := rfl
@[simp] theorem memWrite_host (a v : Word) : (memWrite a v s).host = s.host := rfl

@[simp] theorem hostWrite_regs (b : Byte) : (hostWrite b s).regs = s.regs := rfl
@[simp] theorem hostWrite_pc (b : Byte) : (hostWrite b s).pc = s.pc := rfl
@[simp] theorem hostWrite_cond (b : Byte) : (hostWrite b s).cond = s.cond := rfl
@[simp] theorem hostWrite_mem (b : Byte) : (hostWrite b s).mem = s.mem := rfl
@[simp] theorem hostWrite_run (b : Byte) : (hostWrite b s).run = s.run := rfl
@[simp] theorem hostWrite_out (b : Byte) : (hostWrite b s).out = s.out ++ [b] := rfl
@[simp] theorem hostWrite_svc (b : Byte) : (hostWrite b s).svc = s.svc := rfl
@[simp] theorem hostWrite_host (b : Byte) : (hostWrite b s).host = s.host := rfl

@[simp] theorem hostWriteAll_regs (bs : List Byte) : (hostWriteAll bs s).regs = s.regs := rfl
@[simp] theorem hostWriteAll_pc (bs : List Byte) : (hostWriteAll bs s).pc = s.pc := rfl
@[simp] theorem hostWriteAll_cond (bs : List Byte) : (hostWriteAll bs s).cond = s.cond := rfl
@[simp] theorem hostWriteAll_mem (bs : List Byte) : (hostWriteAll bs s).mem = s.mem := rfl
@[simp] theorem hostWriteAll_run (bs : List Byte) : (hostWriteAll bs s).run = s.run := rfl
@[simp] theorem hostWriteAll_out (bs : List Byte) : (hostWriteAll bs s).out = s.out ++ bs := rfl
@[simp] theorem hostWriteAll_svc (bs : List Byte) : (hostWriteAll bs s).svc = s.svc := rfl
@[simp] theorem hostWriteAll_host (bs : List Byte) : (hostWriteAll bs s).host = s.host := rfl

@[simp] theorem nextDraw_regs : (nextDraw s).regs = s.regs := rfl
@[simp] theorem nextDraw_pc : (nextDraw s).pc = s.pc := rfl
@[simp] theorem nextDraw_cond : (nextDraw s).cond = s.cond := rfl
@[simp] theorem nextDraw_mem : (nextDraw s).mem = s.mem := rfl
@[simp] theorem nextDraw_run : (nextDraw s).run = s.run := rfl
@[simp] theorem nextDraw_out : (nextDraw s).out = s.out := rfl
@[simp] theorem nextDraw_svc : (nextDraw s).svc = s.svc := rfl
@[simp] theorem nextDraw_host : (nextDraw s).host = { s.host with draws := s.host.draws + 1 } := rfl

@[simp] theorem raiseFault_regs (c : FaultCause) (i : Word) (v : Option (BitVec 8)) : (raiseFault c i v s).regs = s.regs := rfl
@[simp] theorem raiseFault_pc (c : FaultCause) (i : Word) (v : Option (BitVec 8)) : (raiseFault c i v s).pc = s.pc := rfl
@[simp] theorem raiseFault_cond (c : FaultCause) (i : Word) (v : Option (BitVec 8)) : (raiseFault c i v s).cond = s.cond := rfl
@[simp] theorem raiseFault_mem (c : FaultCause) (i : Word) (v : Option (BitVec 8)) : (raiseFault c i v s).mem = s.mem := rfl
@[simp] theorem raiseFault_run (c : FaultCause) (i : Word) (v : Option (BitVec 8)) : (raiseFault c i v s).run = .faulted ⟨c, s.pc - 1, i, v⟩ := rfl
@[simp] theorem raiseFault_out (c : FaultCause) (i : Word) (v : Option (BitVec 8)) : (raiseFault c i v s).out = s.out := rfl
@[simp] theorem raiseFault_svc (c : FaultCause) (i : Word) (v : Option (BitVec 8)) : (raiseFault c i v s).svc = s.svc := rfl
@[simp] theorem raiseFault_host (c : FaultCause) (i : Word) (v : Option (BitVec 8)) : (raiseFault c i v s).host = s.host := rfl

@[simp] theorem setHalted_regs : (setHalted s).regs = s.regs := rfl
@[simp] theorem setHalted_pc : (setHalted s).pc = s.pc := rfl
@[simp] theorem setHalted_cond : (setHalted s).cond = s.cond := rfl
@[simp] theorem setHalted_mem : (setHalted s).mem = s.mem := rfl
@[simp] theorem setHalted_run : (setHalted s).run = .halted := rfl
@[simp] theorem setHalted_out : (setHalted s).out = s.out := rfl
@[simp] theorem setHalted_svc : (setHalted s).svc = s.svc := rfl
@[simp] theorem setHalted_host : (setHalted s).host = s.host := rfl

@[simp] theorem setService_regs (v : Option Service) : (setService v s).regs = s.regs := rfl
@[simp] theorem setService_pc (v : Option Service) : (setService v s).pc = s.pc := rfl
@[simp] theorem setService_cond (v : Option Service) : (setService v s).cond = s.cond := rfl
@[simp] theorem setService_mem (v : Option Service) : (setService v s).mem = s.mem := rfl
@[simp] theorem setService_run (v : Option Service) : (setService v s).run = s.run := rfl
@[simp] theorem setService_out (v : Option Service) : (setService v s).out = s.out := rfl
@[simp] theorem setService_svc (v : Option Service) : (setService v s).svc = v := rfl
@[simp] theorem setService_host (v : Option Service) : (setService v s).host = s.host := rfl

@[simp] theorem writeResult_regs (r : Reg) (v : Word) : (writeResult r v s).regs = s.regs.write r v := rfl
@[simp] theorem writeResult_pc (r : Reg) (v : Word) : (writeResult r v s).pc = s.pc := rfl
@[simp] theorem writeResult_cond (r : Reg) (v : Word) : (writeResult r v s).cond = condOf v := rfl
@[simp] theorem writeResult_mem (r : Reg) (v : Word) : (writeResult r v s).mem = s.mem := rfl
@[simp] theorem writeResult_run (r : Reg) (v : Word) : (writeResult r v s).run = s.run := rfl
@[simp] theorem writeResult_out (r : Reg) (v : Word) : (writeResult r v s).out = s.out := rfl
@[simp] theorem writeResult_svc (r : Reg) (v : Word) : (writeResult r v s).svc = s.svc := rfl
@[simp] theorem writeResult_host (r : Reg) (v : Word) : (writeResult r v s).host = s.host := rfl

@[simp] theorem linkR7_regs : (linkR7 s).regs = s.regs.write .r7 s.pc := rfl
@[simp] theorem linkR7_pc : (linkR7 s).pc = s.pc := rfl
@[simp] theorem linkR7_cond : (linkR7 s).cond = s.cond := rfl
@[simp] theorem linkR7_mem : (linkR7 s).mem = s.mem := rfl
@[simp] theorem linkR7_run : (linkR7 s).run = s.run := rfl
@[simp] theorem linkR7_out : (linkR7 s).out = s.out := rfl
@[simp] theorem linkR7_svc : (linkR7 s).svc = s.svc := rfl
@[simp] theorem linkR7_host : (linkR7 s).host = s.host := rfl

/-- R9: a register just written reads as the value written, every other one as before. -/
@[simp] theorem RegFile.read_write (f : RegFile) (r q : Reg) (v : Word) :
    (f.write r v).read q = if q = r then v else f.read q := by
  cases r <;> cases q <;> rfl

/-- A file is its eight registers. -/
theorem RegFile.ext_read (f g : RegFile) (h : ∀ r, f.read r = g.read r) : f = g := by
  cases f; cases g
  simpa [RegFile.read] using And.intro (h .r0) (And.intro (h .r1) (And.intro (h .r2) (And.intro (h .r3)
    (And.intro (h .r4) (And.intro (h .r5) (And.intro (h .r6) (h .r7)))))))

theorem State.reg_def (r : Reg) : s.reg r = s.regs.read r := rfl

theorem State.word_def (a : Word) : s.word a = s.mem.read a.toNat := rfl

@[simp] theorem setReg_reg (r : Reg) (v : Word) (q : Reg) : (setReg r v s).reg q = if q = r then v else s.reg q := RegFile.read_write ..

@[simp] theorem setReg_word (r : Reg) (v : Word) (x : Word) : (setReg r v s).word x = s.word x := rfl

@[simp] theorem setPc_reg (t : Word) (q : Reg) : (setPc t s).reg q = s.reg q := rfl

@[simp] theorem setPc_word (t : Word) (x : Word) : (setPc t s).word x = s.word x := rfl

@[simp] theorem setcc_reg (v : Word) (q : Reg) : (setcc v s).reg q = s.reg q := rfl

@[simp] theorem setcc_word (v : Word) (x : Word) : (setcc v s).word x = s.word x := rfl

@[simp] theorem memWrite_reg (a v : Word) (q : Reg) : (memWrite a v s).reg q = s.reg q := rfl

@[simp] theorem hostWrite_reg (b : Byte) (q : Reg) : (hostWrite b s).reg q = s.reg q := rfl

@[simp] theorem hostWrite_word (b : Byte) (x : Word) : (hostWrite b s).word x = s.word x := rfl

@[simp] theorem hostWriteAll_reg (bs : List Byte) (q : Reg) : (hostWriteAll bs s).reg q = s.reg q := rfl

@[simp] theorem hostWriteAll_word (bs : List Byte) (x : Word) : (hostWriteAll bs s).word x = s.word x := rfl

@[simp] theorem nextDraw_reg (q : Reg) : (nextDraw s).reg q = s.reg q := rfl

@[simp] theorem nextDraw_word (x : Word) : (nextDraw s).word x = s.word x := rfl

@[simp] theorem raiseFault_reg (c : FaultCause) (i : Word) (v : Option (BitVec 8)) (q : Reg) : (raiseFault c i v s).reg q = s.reg q := rfl

@[simp] theorem raiseFault_word (c : FaultCause) (i : Word) (v : Option (BitVec 8)) (x : Word) : (raiseFault c i v s).word x = s.word x := rfl

@[simp] theorem setHalted_reg (q : Reg) : (setHalted s).reg q = s.reg q := rfl

@[simp] theorem setHalted_word (x : Word) : (setHalted s).word x = s.word x := rfl

@[simp] theorem setService_reg (v : Option Service) (q : Reg) : (setService v s).reg q = s.reg q := rfl

@[simp] theorem setService_word (v : Option Service) (x : Word) : (setService v s).word x = s.word x := rfl

@[simp] theorem writeResult_reg (r : Reg) (v : Word) (q : Reg) : (writeResult r v s).reg q = if q = r then v else s.reg q := RegFile.read_write ..

@[simp] theorem writeResult_word (r : Reg) (v : Word) (x : Word) : (writeResult r v s).word x = s.word x := rfl

@[simp] theorem linkR7_reg (q : Reg) : (linkR7 s).reg q = if q = .r7 then s.pc else s.reg q := RegFile.read_write ..

@[simp] theorem linkR7_word (x : Word) : (linkR7 s).word x = s.word x := rfl

end Sys2Proof.Machine
end

