-- ==== Sys2Proof/Laws/Memory.lean ====
section
/-! SUPPORT. The laws of memory: read after write, and that every memory operation keeps the canonical form. -/

namespace Sys2Proof.Machine

@[simp] theorem Memory.read_nil (a : Nat) : Memory.read [] a = Memory.unlisted := rfl

@[simp] theorem Memory.read_cons (k a : Nat) (v : Word) (m : Memory) :
    Memory.read ((k, v) :: m) a = if k = a then v else Memory.read m a := rfl

/-- A dropped address is listed by no cell; the other cells stay. -/
theorem Memory.of_mem_drop {m : Memory} {a : Nat} {c : Nat × Word} (h : c ∈ m.drop a) : c ∈ m ∧ c.1 ≠ a := by
  simpa [Memory.drop] using h

/-- A dropped address reads as unlisted, every other one as before. -/
theorem Memory.read_drop (m : Memory) (a b : Nat) :
    (m.drop a).read b = if b = a then Memory.unlisted else m.read b := by
  induction m with
  | nil => simp [Memory.drop]
  | cons c m ih =>
    obtain ⟨k, v⟩ := c
    simp only [Memory.drop, List.filter_cons] at ih ⊢
    by_cases hk : k = a
    · subst hk
      simp only [bne_self_eq_false, Bool.false_eq_true, if_false, ih, Memory.read_cons]
      by_cases hb : b = k
      · simp [hb]
      · simp [hb, Ne.symm hb]
    · simp only [bne_iff_ne, ne_eq, hk, not_false_eq_true, if_true, Memory.read_cons, ih]
      by_cases hb : k = b
      · simp [hb ▸ hk, hb]
      · simp [hb]

/-- Where no cell of the address is listed, an inserted cell is the one read. -/
theorem Memory.read_insert (m : Memory) (a b : Nat) (v : Word) (ha : ∀ c ∈ m, c.1 ≠ a) :
    (Memory.insert a v m).read b = if b = a then v else m.read b := by
  induction m with
  | nil => simp [Memory.insert, eq_comm]
  | cons c m ih =>
    obtain ⟨k, w⟩ := c
    have hk : k ≠ a := ha (k, w) (by simp)
    have ih := ih fun c hc => ha c (List.mem_cons_of_mem _ hc)
    unfold Memory.insert
    split
    · simp [eq_comm]
    · simp only [Memory.read_cons, ih]
      by_cases hb : k = b
      · simp [hb ▸ hk, hb]
      · simp [hb]

/-- R37: an address just written reads as the value written, every other one as before. -/
@[simp] theorem Memory.read_write (m : Memory) (a b : Nat) (v : Word) :
    (m.write a v).read b = if b = a then v else m.read b := by
  unfold Memory.write
  split
  · next h => subst h; exact Memory.read_drop m a b
  · rw [Memory.read_insert _ _ _ _ fun c hc => (Memory.of_mem_drop hc).2, Memory.read_drop]
    split <;> rfl

/-- The canonical form, cell by cell. -/
theorem Memory.wf_iff (m : Memory) :
    m.wf = true ↔ Memory.rising none m = true ∧ ∀ c ∈ m, c.1 < Params.memoryWords ∧ c.2 ≠ Memory.unlisted := by
  simp [Memory.wf]

/-- A lower bound may be lowered. -/
theorem Memory.rising_mono {m : Memory} {l k : Nat} (hlk : l ≤ k) (h : Memory.rising (some k) m = true) :
    Memory.rising (some l) m = true := by
  cases m with
  | nil => rfl
  | cons c m => simp [Memory.rising] at h ⊢; exact ⟨by omega, h.2⟩

/-- A lower bound may be forgotten. -/
theorem Memory.rising_none {m : Memory} {l : Nat} (h : Memory.rising (some l) m = true) : Memory.rising none m = true := by
  cases m with
  | nil => rfl
  | cons c m => simp [Memory.rising] at h ⊢; exact h.2

/-- Dropping an address keeps the order. -/
theorem Memory.rising_drop {lo : Option Nat} {m : Memory} (a : Nat) (h : Memory.rising lo m = true) :
    Memory.rising lo (m.drop a) = true := by
  induction m generalizing lo with
  | nil => simpa [Memory.drop] using h
  | cons c m ih =>
    obtain ⟨k, v⟩ := c
    simp only [Memory.rising, Bool.and_eq_true] at h
    simp only [Memory.drop, List.filter_cons] at ih ⊢
    by_cases hk : k = a
    · simp only [hk, bne_self_eq_false, Bool.false_eq_true, if_false]
      subst hk
      cases lo with
      | none => exact Memory.rising_none (ih h.2)
      | some l => exact Memory.rising_mono (by simp at h; omega) (ih h.2)
    · simp only [bne_iff_ne, ne_eq, hk, not_false_eq_true, if_true, Memory.rising, Bool.and_eq_true]
      exact ⟨h.1, ih h.2⟩

/-- Inserting an address that is not listed keeps the order. -/
theorem Memory.rising_insert {lo : Option Nat} {m : Memory} {a : Nat} (v : Word) (h : Memory.rising lo m = true)
    (hlo : (lo.all fun l => decide (l < a)) = true) (ha : ∀ c ∈ m, c.1 ≠ a) :
    Memory.rising lo (Memory.insert a v m) = true := by
  induction m generalizing lo with
  | nil => simp [Memory.insert, Memory.rising, hlo]
  | cons c m ih =>
    obtain ⟨k, w⟩ := c
    simp only [Memory.rising, Bool.and_eq_true] at h
    have hk : k ≠ a := ha (k, w) (by simp)
    unfold Memory.insert
    split
    · next hlt => simpa [Memory.rising, hlo, h.2] using hlt
    · next hge =>
      simp only [Memory.rising, Bool.and_eq_true]
      refine ⟨h.1, ih h.2 ?_ fun c hc => ha c (List.mem_cons_of_mem _ hc)⟩
      simp only at hge
      simp; omega

/-- The cells of a memory with one inserted. -/
theorem Memory.mem_insert {m : Memory} {a : Nat} {v : Word} {c : Nat × Word} (h : c ∈ Memory.insert a v m) :
    c = (a, v) ∨ c ∈ m := by
  induction m with
  | nil => simpa [Memory.insert] using h
  | cons d m ih =>
    unfold Memory.insert at h
    split at h
    · simpa using h
    · rcases List.mem_cons.mp h with rfl | h
      · exact .inr List.mem_cons_self
      · exact (ih h).imp_right (List.mem_cons_of_mem _)

/-- Every write within the 65536 words keeps the canonical form. -/
theorem Memory.wf_write {m : Memory} (a : Nat) (v : Word) (ha : a < Params.memoryWords) (h : m.wf = true) :
    (m.write a v).wf = true := by
  rw [Memory.wf_iff] at h ⊢
  unfold Memory.write
  split
  · exact ⟨Memory.rising_drop a h.1, fun c hc => h.2 c (Memory.of_mem_drop hc).1⟩
  · next hv =>
    refine ⟨Memory.rising_insert v (Memory.rising_drop a h.1) rfl fun c hc => (Memory.of_mem_drop hc).2, fun c hc => ?_⟩
    rcases Memory.mem_insert hc with rfl | hc
    · exact ⟨ha, hv⟩
    · exact h.2 c (Memory.of_mem_drop hc).1

/-- R32: every 16-bit address is one of the 65536. -/
theorem toNat_lt_memoryWords (a : Word) : a.toNat < Params.memoryWords := a.isLt

/-- R37: a store keeps the canonical form. -/
theorem memWrite_wf {s : State} (a v : Word) (h : s.mem.wf = true) : (memWrite a v s).mem.wf = true :=
  Memory.wf_write a.toNat v (toNat_lt_memoryWords a) h

/-- R37: a store changes the word at its address and no other. -/
@[simp] theorem memWrite_word (s : State) (a v x : Word) : (memWrite a v s).word x = if x = a then v else s.word x := by
  simp [State.word, BitVec.toNat_inj]

end Sys2Proof.Machine
end

