-- ==== Sys2Proof/Laws/Ops.lean ====
section
/-! SUPPORT. Everything the shared operations can do: the host's capabilities, the keyboard poll and the intercepting read. -/

namespace Sys2Proof.Machine

variable (s : State) {P : Params}

/-- R24: a poll changes the host's side alone. -/
theorem hostPoll_frame : (hostPoll s).2 = { s with host := (hostPoll s).2.host } := by
  unfold hostPoll; split <;> rfl

/-- R25: a read after a true poll changes the host's side alone. -/
theorem hostReadReady_frame : (hostReadReady s).2 = { s with host := (hostReadReady s).2.host } := by
  unfold hostReadReady; split <;> rfl

/-- R25: an attempt to read changes the host's side alone. -/
theorem hostReadAttempt_frame : (hostReadAttempt s).2 = { s with host := (hostReadAttempt s).2.host } := by
  unfold hostReadAttempt; split <;> rfl

/-- R27: no host call touches the abort signal. -/
theorem hostPoll_abort : (hostPoll s).2.host.abort = s.host.abort := by
  unfold hostPoll; split <;> rfl

theorem hostReadReady_abort : (hostReadReady s).2.host.abort = s.host.abort := by
  unfold hostReadReady; split <;> rfl

theorem hostReadAttempt_abort : (hostReadAttempt s).2.host.abort = s.host.abort := by
  unfold hostReadAttempt; split <;> rfl

/-- R35: the keyboard poll where a character is pending. -/
theorem keyboardPoll_true (h : (hostPoll s).1 = true) :
    keyboardPoll s P = memWrite P.kbdrAddr (zext16 (hostReadReady (hostPoll s).2).1)
      (memWrite P.kbsrAddr P.kbsrReady (hostReadReady (hostPoll s).2).2) := by
  unfold keyboardPoll
  split
  · next h1 => rw [h1]
  · next h1 => simp [h1] at h

/-- R35: the keyboard poll where none is. -/
theorem keyboardPoll_false (h : (hostPoll s).1 = false) :
    keyboardPoll s P = memWrite P.kbsrAddr 0x0000 (hostPoll s).2 := by
  unfold keyboardPoll
  split
  · next h1 => simp [h1] at h
  · next h1 => rw [h1]

/-- R35, R99: a poll changes memory and the host's side alone. -/
theorem keyboardPoll_frame :
    keyboardPoll s P = { s with mem := (keyboardPoll s P).mem, host := (keyboardPoll s P).host } := by
  cases h : (hostPoll s).1
  · rw [keyboardPoll_false s h, hostPoll_frame]; rfl
  · rw [keyboardPoll_true s h, hostReadReady_frame, hostPoll_frame]; rfl

/-- R27: a poll does not touch the abort signal. -/
theorem keyboardPoll_abort : (keyboardPoll s P).host.abort = s.host.abort := by
  cases h : (hostPoll s).1
  · rw [keyboardPoll_false s h]; exact hostPoll_abort s
  · rw [keyboardPoll_true s h]; exact (hostReadReady_abort _).trans (hostPoll_abort s)

/-- R35: a poll writes the two keyboard words and no other. -/
theorem keyboardPoll_word (a : Word) (h1 : a ≠ P.kbsrAddr) (h2 : a ≠ P.kbdrAddr) :
    (keyboardPoll s P).word a = s.word a := by
  cases h : (hostPoll s).1
  · rw [keyboardPoll_false s h, hostPoll_frame]; simp [h1]; rfl
  · rw [keyboardPoll_true s h, hostReadReady_frame, hostPoll_frame]; simp [h1, h2]; rfl

/-- R35: the status word a poll leaves. -/
theorem keyboardPoll_kbsr (hP : P.kbsrAddr ≠ P.kbdrAddr) :
    (keyboardPoll s P).word P.kbsrAddr = if (hostPoll s).1 then P.kbsrReady else 0x0000 := by
  cases h : (hostPoll s).1
  · rw [keyboardPoll_false s h]; simp
  · rw [keyboardPoll_true s h, memWrite_word, memWrite_word, if_neg hP, if_pos rfl, if_pos rfl]

/-- A poll keeps memory in canonical form. -/
theorem keyboardPoll_wf (hm : s.mem.wf = true) : (keyboardPoll s P).mem.wf = true := by
  cases h : (hostPoll s).1
  · rw [keyboardPoll_false s h]
    exact memWrite_wf _ _ (by rw [hostPoll_frame]; exact hm)
  · rw [keyboardPoll_true s h]
    exact memWrite_wf _ _ (memWrite_wf _ _ (by rw [hostReadReady_frame, hostPoll_frame]; exact hm))

variable (a : Word)

/-- R36: a read of any address but KBSR has no side effect. -/
theorem afterRead_plain (h : a ≠ P.kbsrAddr) : afterRead a s P = s := if_neg h

/-- R34, R35: a read of KBSR polls. -/
theorem afterRead_kbsr : afterRead P.kbsrAddr s P = keyboardPoll s P := if_pos rfl

/-- R36: a read of any address but KBSR returns the stored word. -/
theorem memRead_plain (h : a ≠ P.kbsrAddr) : memRead a s P = (s.word a, s) := by
  simp [memRead, afterRead_plain s a h]

/-- R34: a read changes memory and the host's side alone. -/
theorem afterRead_frame : afterRead a s P = { s with mem := (afterRead a s P).mem, host := (afterRead a s P).host } := by
  unfold afterRead
  split
  · exact keyboardPoll_frame s
  · rfl

@[simp] theorem afterRead_regs : (afterRead a s P).regs = s.regs := by rw [afterRead_frame]
@[simp] theorem afterRead_pc : (afterRead a s P).pc = s.pc := by rw [afterRead_frame]
@[simp] theorem afterRead_cond : (afterRead a s P).cond = s.cond := by rw [afterRead_frame]
@[simp] theorem afterRead_run : (afterRead a s P).run = s.run := by rw [afterRead_frame]
@[simp] theorem afterRead_out : (afterRead a s P).out = s.out := by rw [afterRead_frame]
@[simp] theorem afterRead_svc : (afterRead a s P).svc = s.svc := by rw [afterRead_frame]
@[simp] theorem afterRead_reg (r : Reg) : (afterRead a s P).reg r = s.reg r := by simp [State.reg]

@[simp] theorem afterRead_abort : (afterRead a s P).host.abort = s.host.abort := by
  unfold afterRead
  split
  · exact keyboardPoll_abort s
  · rfl

/-- R35, R36: a read changes at most the two keyboard words. -/
theorem afterRead_word (x : Word) (h1 : x ≠ P.kbsrAddr) (h2 : x ≠ P.kbdrAddr) :
    (afterRead a s P).word x = s.word x := by
  unfold afterRead
  split
  · exact keyboardPoll_word s x h1 h2
  · rfl

/-- A read keeps memory in canonical form. -/
theorem afterRead_wf (hm : s.mem.wf = true) : (afterRead a s P).mem.wf = true := by
  unfold afterRead
  split
  · exact keyboardPoll_wf s hm
  · exact hm

@[simp] theorem memRead_snd : (memRead a s P).2 = afterRead a s P := rfl

theorem memRead_fst : (memRead a s P).1 = (afterRead a s P).word a := rfl

end Sys2Proof.Machine
end

