-- ==== Sys2Proof/Laws/Parametric.lean ====
section
/-! SUPPORT. The machine under parameters, at the values the spec fixes. -/

namespace Sys2Proof.Machine

/-- R2: dispatch at the spec's values. -/
theorem execAt_spec : execAt Params.spec = exec := by
  funext i s
  cases i <;> rfl

/-- R2: a step at the spec's values. -/
theorem stepAt_spec : stepAt Params.spec = step := by
  funext s
  rw [stepAt, execAt_spec, step]

/-- R2: the machine at the spec's values. -/
theorem coreAt_spec : coreAt Params.spec = core := by
  rw [coreAt, stepAt_spec]
  rfl

end Sys2Proof.Machine
end

