-- ==== Sys2Proof/Laws/Params.lean ====
section
/-! SUPPORT. What a proper choice of the parameters gives, and that the spec's is one. -/

namespace Sys2Proof.Machine.Params

variable {P : Params}

/-- R2, R3: the spec's values are a proper choice. -/
@[simp] theorem spec_wf : spec.wf = true := by decide

/-- R3: the two keyboard addresses are distinct. -/
theorem kbsr_ne_kbdr (h : P.wf = true) : P.kbsrAddr ≠ P.kbdrAddr := by
  simp only [wf, Bool.and_eq_true, bne_iff_ne, ne_eq] at h
  exact h.1

/-- R91: the vector of a service selects that service. -/
theorem serviceOf_vectorOf (h : P.wf = true) (n : ServiceName) : P.serviceOf (P.vectorOf n) = some n := by
  simp only [wf, Bool.and_eq_true, decide_eq_true_eq, List.nodup_cons, List.mem_cons, not_or] at h
  obtain ⟨-, h⟩ := h
  cases n <;> simp [serviceOf, vectorOf] <;> simp_all [eq_comm]

/-- R91: a vector that selects a service is that service's. -/
theorem eq_vectorOf {v : BitVec 8} {n : ServiceName} (h : P.serviceOf v = some n) : v = P.vectorOf n := by
  unfold serviceOf at h
  repeat' split at h
  all_goals first | (cases h; assumption) | cases h

end Sys2Proof.Machine.Params
end

