-- ==== Sys2Proof/Laws/PerInstr.lean ====
section
/-! SUPPORT. A fact of every instruction as syntax: its word holds its row's opcode number in bits 15:12 (R51). -/

namespace Sys2Proof.Laws.EncodedOpcode

/-- R51: the opcode number of an instruction's row. -/
def opcode : Instr → BitVec 4
  | .br .. => 0x0#4
  | .addReg .. | .addImm .. => 0x1#4
  | .ld .. => 0x2#4
  | .st .. => 0x3#4
  | .jsr .. | .jsrr .. => 0x4#4
  | .andReg .. | .andImm .. => 0x5#4
  | .ldr .. => 0x6#4
  | .str .. => 0x7#4
  | .reserved1000 .. => 0x8#4
  | .not .. => 0x9#4
  | .ldi .. => 0xA#4
  | .sti .. => 0xB#4
  | .jmp .. | .ret .. => 0xC#4
  | .reserved1101 .. => 0xD#4
  | .lea .. => 0xE#4
  | .trap .. | .getc .. | .out .. | .puts .. | .inChar .. | .putsp .. | .halt .. => 0xF#4

/-- The encoder writes the opcode number where the decoder reads it. -/
def Statement (i : Instr) : Prop := bitField (encode i) 12 4 = opcode i

theorem wordOpr_opcode (op : BitVec 4) (a b : Reg) (g : BitVec 2) (c : Reg) : bitField (wordOpr op a b g c) 12 4 = op := by
  unfold bitField wordOpr
  simp (disch := decide) only [field_high, Nat.reduceSub, BitVec.extractLsb'_eq_self]

theorem wordOpi_opcode (op : BitVec 4) (a b : Reg) (i : BitVec 5) : bitField (wordOpi op a b i) 12 4 = op := by
  unfold bitField wordOpi
  simp (disch := decide) only [field_high, Nat.reduceSub, BitVec.extractLsb'_eq_self]

theorem wordPcrel_opcode (op : BitVec 4) (a : Reg) (o : BitVec 9) : bitField (wordPcrel op a o) 12 4 = op := by
  unfold bitField wordPcrel
  simp (disch := decide) only [field_high, Nat.reduceSub, BitVec.extractLsb'_eq_self]

theorem wordBase_opcode (op : BitVec 4) (a b : Reg) (o : BitVec 6) : bitField (wordBase op a b o) 12 4 = op := by
  unfold bitField wordBase
  simp (disch := decide) only [field_high, Nat.reduceSub, BitVec.extractLsb'_eq_self]

theorem wordJmp_opcode (g : BitVec 3) (b : Reg) (h : BitVec 6) : bitField (wordJmp g b h) 12 4 = 0xC#4 := by
  unfold bitField wordJmp
  simp (disch := decide) only [field_high, Nat.reduceSub, BitVec.extractLsb'_eq_self]

theorem wordTrap_opcode (g : BitVec 4) (v : BitVec 8) : bitField (wordTrap g v) 12 4 = 0xF#4 := by
  unfold bitField wordTrap
  simp (disch := decide) only [field_high, Nat.reduceSub, BitVec.extractLsb'_eq_self]

theorem addReg (dr sr1 : Reg) (ign : BitVec 2) (sr2 : Reg) : Statement (.addReg dr sr1 ign sr2) := wordOpr_opcode ..

theorem addImm (dr sr1 : Reg) (imm5 : BitVec 5) : Statement (.addImm dr sr1 imm5) := wordOpi_opcode ..

theorem andReg (dr sr1 : Reg) (ign : BitVec 2) (sr2 : Reg) : Statement (.andReg dr sr1 ign sr2) := wordOpr_opcode ..

theorem andImm (dr sr1 : Reg) (imm5 : BitVec 5) : Statement (.andImm dr sr1 imm5) := wordOpi_opcode ..

theorem not (dr sr : Reg) (ign : BitVec 6) : Statement (.not dr sr ign) := wordBase_opcode ..

theorem br (nzp : BitVec 3) (off9 : BitVec 9) : Statement (.br nzp off9) := by
  unfold Statement encode bitField opcode
  simp (disch := decide) only [field_high, Nat.reduceSub, BitVec.extractLsb'_eq_self]

theorem jmp (ignHi : BitVec 3) (base : Reg) (ignLo : BitVec 6) : Statement (.jmp ignHi base ignLo) := wordJmp_opcode ..

theorem ret (ignHi : BitVec 3) (ignLo : BitVec 6) : Statement (.ret ignHi ignLo) := wordJmp_opcode ..

theorem jsr (off11 : BitVec 11) : Statement (.jsr off11) := by
  unfold Statement encode bitField opcode
  simp (disch := decide) only [field_high, Nat.reduceSub, BitVec.extractLsb'_eq_self]

theorem jsrr (ignHi : BitVec 2) (base : Reg) (ignLo : BitVec 6) : Statement (.jsrr ignHi base ignLo) := by
  unfold Statement encode bitField opcode
  simp (disch := decide) only [field_high, Nat.reduceSub, BitVec.extractLsb'_eq_self]

theorem ld (dr : Reg) (off9 : BitVec 9) : Statement (.ld dr off9) := wordPcrel_opcode ..

theorem ldi (dr : Reg) (off9 : BitVec 9) : Statement (.ldi dr off9) := wordPcrel_opcode ..

theorem ldr (dr base : Reg) (off6 : BitVec 6) : Statement (.ldr dr base off6) := wordBase_opcode ..

theorem lea (dr : Reg) (off9 : BitVec 9) : Statement (.lea dr off9) := wordPcrel_opcode ..

theorem st (sr : Reg) (off9 : BitVec 9) : Statement (.st sr off9) := wordPcrel_opcode ..

theorem sti (sr : Reg) (off9 : BitVec 9) : Statement (.sti sr off9) := wordPcrel_opcode ..

theorem str (sr base : Reg) (off6 : BitVec 6) : Statement (.str sr base off6) := wordBase_opcode ..

theorem trap (ign : BitVec 4) (vect8 : BitVec 8) : Statement (.trap ign vect8) := wordTrap_opcode ..

theorem getc (ign : BitVec 4) : Statement (.getc ign) := wordTrap_opcode ..

theorem out (ign : BitVec 4) : Statement (.out ign) := wordTrap_opcode ..

theorem puts (ign : BitVec 4) : Statement (.puts ign) := wordTrap_opcode ..

theorem inChar (ign : BitVec 4) : Statement (.inChar ign) := wordTrap_opcode ..

theorem putsp (ign : BitVec 4) : Statement (.putsp ign) := wordTrap_opcode ..

theorem halt (ign : BitVec 4) : Statement (.halt ign) := wordTrap_opcode ..

theorem reserved1000 (ign : BitVec 12) : Statement (.reserved1000 ign) := by
  unfold Statement encode bitField opcode
  simp (disch := decide) only [field_high, Nat.reduceSub, BitVec.extractLsb'_eq_self]

theorem reserved1101 (ign : BitVec 12) : Statement (.reserved1101 ign) := by
  unfold Statement encode bitField opcode
  simp (disch := decide) only [field_high, Nat.reduceSub, BitVec.extractLsb'_eq_self]

end Sys2Proof.Laws.EncodedOpcode
end

