-- ==== Sys2Proof/Laws/Trap.lean ====
section
/-! SUPPORT. Everything the service routines can do: the loop of the string services and the blocking read. -/

namespace Sys2Proof.Machine

variable (held : Word → Service) (bytes : Word → List Byte) {P : Params}

theorem stringLoop_zero (a : Word) (s : State) : stringLoop held bytes 0 a s P = setService (some (held a)) s := rfl

/-- R94, R96: one turn of the loop. -/
theorem stringLoop_succ (n : Nat) (a : Word) (s : State) :
    stringLoop held bytes (n + 1) a s P =
      if (memRead a s P).1 = 0x0000 then setService none (afterRead a s P)
      else stringLoop held bytes n (a + 1) (hostWriteAll (bytes (memRead a s P).1) (afterRead a s P)) P := rfl

/-- R94, R96, R99: what a string service leaves unchanged whatever it reads. -/
structure StringFrame (P : Params) (s t : State) : Prop where
  regs : t.regs = s.regs
  pc : t.pc = s.pc
  cond : t.cond = s.cond
  run : t.run = s.run
  abort : t.host.abort = s.host.abort
  wf : s.mem.wf = true → t.mem.wf = true
  word : ∀ x, x ≠ P.kbsrAddr → x ≠ P.kbdrAddr → t.word x = s.word x
  out : ∃ bs, t.out = s.out ++ bs

theorem stringLoop_frame (n : Nat) (a : Word) (s : State) : StringFrame P s (stringLoop held bytes n a s P) := by
  induction n generalizing a s with
  | zero => exact ⟨rfl, rfl, rfl, rfl, rfl, id, fun _ _ _ => rfl, [], by simp [stringLoop_zero]⟩
  | succ n ih =>
    rw [stringLoop_succ]
    split
    · exact ⟨by simp, by simp, by simp, by simp, by simp, fun h => afterRead_wf s a h,
        fun x h1 h2 => by simpa using afterRead_word s a x h1 h2, [], by simp⟩
    · have h := ih (a + 1) (hostWriteAll (bytes (memRead a s P).1) (afterRead a s P))
      obtain ⟨bs, hbs⟩ := h.out
      exact ⟨by simpa using h.regs, by simpa using h.pc, by simpa using h.cond, by simpa using h.run, by simpa using h.abort,
        fun hm => h.wf (afterRead_wf s a hm),
        fun x h1 h2 => (h.word x h1 h2).trans (by simpa using afterRead_word s a x h1 h2),
        bytes (memRead a s P).1 ++ bs, by simpa using hbs⟩

variable (h : Service) (finish : Byte → State → State) (s : State)

/-- R25: a blocking read where the host yields a character. -/
theorem awaitChar_some {c : Byte} (hc : (hostReadAttempt s).1 = some c) :
    awaitChar h finish s = setService none (finish c (hostReadAttempt s).2) := by
  unfold awaitChar
  split
  · next h1 => rw [h1] at hc ⊢; cases hc; rfl
  · next h1 => simp [h1] at hc

/-- R25, R100 (d): a blocking read where it yields none: the routine holds. -/
theorem awaitChar_none (hc : (hostReadAttempt s).1 = none) :
    awaitChar h finish s = setService (some h) (hostReadAttempt s).2 := by
  unfold awaitChar
  split
  · next h1 => simp [h1] at hc
  · next h1 => rw [h1]

/-- R25: with a character given in advance and no wait, the attempt yields it. -/
theorem hostReadAttempt_cons {c : Byte} {rest : List Byte} (hk : s.host.stall = 0) (hc : s.host.chars = c :: rest) :
    hostReadAttempt s = (some c, { s with host := { s.host with chars := rest } }) := by
  unfold hostReadAttempt
  rw [hk, hc]

/-- R25: while the host stalls, the attempt yields none. -/
theorem hostReadAttempt_stall {k : Nat} (hk : s.host.stall = k + 1) :
    hostReadAttempt s = (none, { s with host := { s.host with stall := k } }) := by
  unfold hostReadAttempt
  rw [hk]

end Sys2Proof.Machine
end

