-- ==== Sys2Proof/Laws/Step.lean ====
section
/-! SUPPORT. What a step can do, said once. -/

namespace Sys2Proof.Machine

variable {s t : State}

/-- R49: from a state ready to fetch, a step is the handler of the decoded word, run after the fetch. -/
theorem step_ready (h : Ready s) : step s = exec (decodeWord (fetchWord s)) (afterFetch s) := by
  obtain ⟨hr, hv, ha⟩ := h
  simp [step, stepWith, hr, hv, ha]

/-- R98, R129: with a service in progress, a step carries it on. -/
theorem step_service {v : Service} (hr : s.run = .running) (hv : s.svc = some v) (ha : s.host.abort = false) :
    step s = .next (resumeService v s) := by
  simp [step, stepWith, hr, hv, ha]

/-- R100: a step that answers a next state fetched and ran an instruction, or carried on a service in progress. -/
theorem step_cases (h : step s = .next t) :
    s.host.abort = false ∧ s.run = .running ∧
      ((s.svc = none ∧ exec (decodeWord (fetchWord s)) (afterFetch s) = .next t) ∨
        ∃ v, s.svc = some v ∧ t = resumeService v s) := by
  unfold step stepWith at h
  split at h
  · cases h
  · next ha =>
    refine ⟨by simpa using ha, ?_⟩
    split at h
    · cases h
    · cases h
    · next hr =>
      refine ⟨hr, ?_⟩
      split at h
      · next v hv => exact .inr ⟨v, hv, by cases h; rfl⟩
      · next hv => exact .inl ⟨hv, h⟩

@[simp] theorem afterFetch_regs : (afterFetch s).regs = s.regs := by simp [afterFetch]
@[simp] theorem afterFetch_pc : (afterFetch s).pc = s.pc + 1 := rfl
@[simp] theorem afterFetch_cond : (afterFetch s).cond = s.cond := by simp [afterFetch]
@[simp] theorem afterFetch_run : (afterFetch s).run = s.run := by simp [afterFetch]
@[simp] theorem afterFetch_out : (afterFetch s).out = s.out := by simp [afterFetch]
@[simp] theorem afterFetch_svc : (afterFetch s).svc = s.svc := by simp [afterFetch]

end Sys2Proof.Machine
end

