-- ==== Sys2Proof/Tests/Slice0.lean ====
section
/-! SUPPORT. The model's own tests: the WellFormed smoke, a written-out word for each constructor, one step per test from the
vectors of 95_test_vectors.md, and for each statement with hypotheses a state that meets them. -/

namespace Sys2Proof.Tests

open Sys2Proof Sys2Proof.Machine Sys2Proof.Spec

/-! ## Helpers -/

/-- A word placed at an address, and PC there. -/
def place (pc w : Word) (s : State := State.reset) : State := { memWrite pc w s with pc := pc }

/-- Words placed in memory. -/
def cells (cs : List (Word × Word)) (s : State) : State := cs.foldl (fun s c => memWrite c.1 c.2 s) s

/-- The host's answers given in advance. -/
def hosted (polls : List Bool) (chars : List Byte) (s : State) : State :=
  { s with host := { s.host with polls := polls, chars := chars } }

/-- The state after one step, if there is one. -/
def next? (s : State) : Option State :=
  match step s with
  | .next t => some t
  | _ => none

/-- One view of the state after one step. -/
def after {α : Type} (s : State) (f : State → α) : Option α := (next? s).map f

/-! ## WellFormed -/

theorem test_wellFormed_refuses_jmp_through_r7 : WellFormed (.jmp 0 .r7 0) = false := by decide
theorem test_wellFormed_takes_jmp_through_r6 : WellFormed (.jmp 0 .r6 0) = true := by decide
theorem test_wellFormed_refuses_trap_with_a_service_vector : WellFormed (.trap 0 0x25) = false := by decide
theorem test_wellFormed_takes_trap_beyond_the_services : WellFormed (.trap 0 0x26) = true := by decide

/-! ## Decoding: words written out from R51 and R53, a field at a time -/

theorem test_decode_addReg : decodeWord 0b0001_001_010_0_00_011 = .addReg .r1 .r2 0b00 .r3 := by decide
theorem test_decode_addReg_ignored : decodeWord 0b0001_111_000_0_10_100 = .addReg .r7 .r0 0b10 .r4 := by decide
theorem test_decode_addImm : decodeWord 0b0001_010_001_1_11110 = .addImm .r2 .r1 0b11110 := by decide
theorem test_decode_andReg : decodeWord 0b0101_011_001_0_00_010 = .andReg .r3 .r1 0b00 .r2 := by decide
theorem test_decode_andImm : decodeWord 0b0101_001_110_1_10000 = .andImm .r1 .r6 0b10000 := by decide
theorem test_decode_not : decodeWord 0b1001_100_101_111111 = .not .r4 .r5 0b111111 := by decide
theorem test_decode_br : decodeWord 0b0000_101_100000001 = .br 0b101 0b100000001 := by decide
theorem test_decode_jmp : decodeWord 0b1100_000_010_000000 = .jmp 0b000 .r2 0b000000 := by decide
theorem test_decode_ret : decodeWord 0b1100_000_111_000000 = .ret 0b000 0b000000 := by decide
theorem test_decode_ret_ignored : decodeWord 0b1100_101_111_100001 = .ret 0b101 0b100001 := by decide
theorem test_decode_jsr : decodeWord 0b0100_1_10000000011 = .jsr 0b10000000011 := by decide
theorem test_decode_jsrr : decodeWord 0b0100_0_01_011_100000 = .jsrr 0b01 .r3 0b100000 := by decide
theorem test_decode_ld : decodeWord 0b0010_000_000000010 = .ld .r0 0b000000010 := by decide
theorem test_decode_ldi : decodeWord 0b1010_001_000000101 = .ldi .r1 0b000000101 := by decide
theorem test_decode_ldr : decodeWord 0b0110_010_011_111111 = .ldr .r2 .r3 0b111111 := by decide
theorem test_decode_lea : decodeWord 0b1110_100_111111101 = .lea .r4 0b111111101 := by decide
theorem test_decode_st : decodeWord 0b0011_110_000000100 = .st .r6 0b000000100 := by decide
theorem test_decode_sti : decodeWord 0b1011_101_000000001 = .sti .r5 0b000000001 := by decide
theorem test_decode_str : decodeWord 0b0111_110_001_011111 = .str .r6 .r1 0b011111 := by decide
theorem test_decode_trap : decodeWord 0b1111_0001_00100110 = .trap 0b0001 0b00100110 := by decide
theorem test_decode_trap_below : decodeWord 0b1111_0000_00011111 = .trap 0b0000 0b00011111 := by decide
theorem test_decode_getc : decodeWord 0b1111_0000_00100000 = .getc 0b0000 := by decide
theorem test_decode_out : decodeWord 0b1111_0000_00100001 = .out 0b0000 := by decide
theorem test_decode_puts : decodeWord 0b1111_0000_00100010 = .puts 0b0000 := by decide
theorem test_decode_in : decodeWord 0b1111_0000_00100011 = .inChar 0b0000 := by decide
theorem test_decode_putsp : decodeWord 0b1111_0000_00100100 = .putsp 0b0000 := by decide
theorem test_decode_halt : decodeWord 0b1111_1111_00100101 = .halt 0b1111 := by decide
theorem test_decode_reserved1000 : decodeWord 0b1000_000000000001 = .reserved1000 0b000000000001 := by decide
theorem test_decode_reserved1101 : decodeWord 0b1101_000100100011 = .reserved1101 0b000100100011 := by decide

theorem test_decode_empty : (decode []).toOption = none := by decide
theorem test_decodeTableWord : decodeTableWord 16 0xF025 = some (.halt 0) := by decide
theorem test_decodeTableWord_too_long : decodeTableWord 32 0xF025 = none ∧ decodeTableWord 16 0x1F025 = none := by decide

/-! ## Fields and flags: S1, S2 and section 2.1 -/

theorem test_sext5 : sext16 (0x1F : BitVec 5) = 0xFFFF ∧ sext16 (0x0F : BitVec 5) = 0x000F := by decide
theorem test_sext9 : sext16 (0x100 : BitVec 9) = 0xFF00 ∧ sext16 (0x0FF : BitVec 9) = 0x00FF := by decide
theorem test_sext11 : sext16 (0x400 : BitVec 11) = 0xFC00 := by decide
theorem test_sext6 : sext16 (0x20 : BitVec 6) = 0xFFE0 := by decide
theorem test_condOf : [0x0000, 0x8000, 0xFFFF, 0x0001, 0x7FFF].map condOf = [.z, .n, .n, .p, .p] := by decide

/-! ## Operate: section 2.2 -/

theorem test_add_overflow :
    after (place 0x3000 0x1283 (setReg .r2 0x7FFF (setReg .r3 0x0001 State.reset))) (fun t => (t.reg .r1, t.cond, t.pc))
      = some (0x8000, .n, 0x3001) := by decide
theorem test_add_same_register :
    after (place 0x3000 0x1241 (setReg .r1 0x4000 State.reset)) (fun t => (t.reg .r1, t.cond)) = some (0x8000, .n) := by decide
theorem test_addImm_minus_two :
    after (place 0x3000 0x147E (setReg .r1 3 State.reset)) (fun t => (t.reg .r2, t.cond)) = some (0x0001, .p) := by decide
theorem test_addImm_minus_sixteen :
    after (place 0x3000 0x1030 (setReg .r0 0x0010 State.reset)) (fun t => (t.reg .r0, t.cond)) = some (0x0000, .z) := by decide
theorem test_and :
    after (place 0x3000 0x5642 (setReg .r1 0xF0F0 (setReg .r2 0x0FF0 State.reset))) (fun t => (t.reg .r3, t.cond))
      = some (0x00F0, .p) := by decide
theorem test_andImm_sign_extends :
    after (place 0x3000 0x5270 (setReg .r1 0x1234 State.reset)) (fun t => (t.reg .r1, t.cond)) = some (0x1230, .p) := by decide
theorem test_not :
    after (place 0x3000 0x997F (setReg .r5 0x00FF State.reset)) (fun t => (t.reg .r4, t.cond)) = some (0xFF00, .n) := by decide
theorem test_not_ignored_bits :
    after (place 0x3000 0x9940 (setReg .r5 0x00FF State.reset)) (fun t => (t.reg .r4, t.cond)) = some (0xFF00, .n) := by decide

/-! ## Control transfer: section 2.3 -/

/-- The table of masks and conditions: the words 0x0003 + (nzp << 9), the PC after each under N, Z and P. -/
theorem test_br_masks :
    [0x0003, 0x0203, 0x0403, 0x0603, 0x0803, 0x0A03, 0x0C03, 0x0E03].map (fun w =>
      [Cond.n, .z, .p].map fun c => after (place 0x3000 w { State.reset with cond := c }) (·.pc == 0x3004))
      = [[false, false, false], [false, false, true], [false, true, false], [false, true, true],
         [true, false, false], [true, false, true], [true, true, false], [true, true, true]].map (·.map some) := by decide
theorem test_br_wraps :
    after (place 0xFFFF 0x0E02) (·.pc) = some 0x0002 ∧ after (place 0x0010 0x0F00) (·.pc) = some 0xFF11 := by decide
theorem test_jmp : after (place 0x3000 0xC080 (setReg .r2 0x4000 State.reset)) (·.pc) = some 0x4000 := by decide
theorem test_ret : after (place 0x3000 0xC1C0 (setReg .r7 0x3001 State.reset)) (·.pc) = some 0x3001 := by decide
theorem test_jsr_long_form : after (place 0x2FFF 0x4FFF) (fun t => (t.pc, t.reg .r7)) = some (0x2FFF, 0x3000) := by decide
theorem test_jsr_wraps : after (place 0x0100 0x4C00) (fun t => (t.pc, t.reg .r7)) = some (0xFD01, 0x0101) := by decide
theorem test_jsrr :
    after (place 0x3000 0x40C0 (setReg .r3 0x5000 State.reset)) (fun t => (t.pc, t.reg .r7)) = some (0x5000, 0x3001) := by decide
theorem test_jsrr_through_r7 :
    after (place 0x3000 0x41C0 (setReg .r7 0x5000 State.reset)) (fun t => (t.pc, t.reg .r7)) = some (0x3001, 0x3001) := by decide

/-! ## Loads and stores: section 2.4 -/

theorem test_ld :
    after (place 0x3000 0x2002 (cells [(0x3003, 0x8001)] State.reset)) (fun t => (t.reg .r0, t.cond)) = some (0x8001, .n) := by
  decide
theorem test_ld_polls_kbsr :
    after (place 0xFDFF 0x2000 (hosted [true] [0x41] State.reset)) (fun t => (t.word 0xFE00, t.word 0xFE02, t.reg .r0, t.cond))
      = some (0x8000, 0x0041, 0x8000, .n) := by decide
theorem test_ldi :
    after (place 0x3000 0xA205 (cells [(0x3006, 0x4000)] (setReg .r1 7 State.reset))) (fun t => (t.reg .r1, t.cond))
      = some (0x0000, .z) := by decide
theorem test_ldi_polls_kbsr :
    after (place 0x3000 0xA205 (cells [(0x3006, 0xFE00)] (hosted [true] [0x7A] State.reset)))
      (fun t => (t.word 0xFE00, t.word 0xFE02, t.reg .r1)) = some (0x8000, 0x007A, 0x8000) := by decide
theorem test_ldr_wraps :
    after (place 0x3000 0x64FF (cells [(0xFFFF, 0x1111)] State.reset)) (fun t => (t.reg .r2, t.cond)) = some (0x1111, .p) := by
  decide
theorem test_ldr_base_is_destination :
    after (place 0x3000 0x66C1 (cells [(0x4001, 0x0009)] (setReg .r3 0x4000 State.reset))) (·.reg .r3) = some 0x0009 := by decide
theorem test_lea : after (place 0x3000 0xE9FD) (fun t => (t.reg .r4, t.cond)) = some (0x2FFE, .p) := by decide
theorem test_lea_does_not_poll :
    after (place 0xFDFF 0xE200 (cells [(0xFE00, 0x1234)] (hosted [true] [] State.reset)))
      (fun t => (t.reg .r1, t.cond, t.word 0xFE00)) = some (0xFE00, .n, 0x1234) := by decide
theorem test_st :
    after (place 0x3000 0x3004 (setReg .r0 0x1234 { State.reset with cond := .n })) (fun t => (t.word 0x3005, t.cond))
      = some (0x1234, .n) := by decide
theorem test_st_at_kbsr_is_plain :
    after (place 0xFDFE 0x3001 (setReg .r0 0x8000 (hosted [false] [] State.reset))) (fun t => (t.word 0xFE00, t.host.polls))
      = some (0x8000, [false]) := by decide
theorem test_sti :
    after (place 0x3000 0xBA01 (cells [(0x3002, 0x5000)] (setReg .r5 0xBEEF State.reset))) (·.word 0x5000) = some 0xBEEF := by
  decide
theorem test_sti_pointer_at_kbsr :
    after (place 0xFDFE 0xBA01 (setReg .r5 0xBEEF (hosted [true] [0x41] State.reset))) (fun t => (t.word 0x8000, t.word 0xFE00))
      = some (0xBEEF, 0x8000) := by decide
theorem test_str_wraps :
    after (place 0x3000 0x7C5F (setReg .r1 0xFFF0 (setReg .r6 0x0042 State.reset))) (·.word 0x000F) = some 0x0042 := by decide
theorem test_str_base_is_source :
    after (place 0x3000 0x7240 (setReg .r1 0x4000 State.reset)) (·.word 0x4000) = some 0x4000 := by decide

/-! ## A fetch at the keyboard-status word: section 2.5 -/

theorem test_fetch_at_kbsr_no_character :
    after { hosted [false] [] State.reset with pc := 0xFE00 } (fun t => (t.pc, t.run)) = some (0xFE01, .running) := by decide
theorem test_fetch_at_kbsr_character :
    after { hosted [true] [0x41] State.reset with pc := 0xFE00 } (fun t => (t.pc, t.run))
      = some (0xFE01, .faulted ⟨.reservedOpcode, 0xFE00, 0x8000, none⟩) := by decide

/-! ## TRAP services: section 2.6 -/

theorem test_getc :
    after (place 0x3000 0xF020 (hosted [] [0xFF] { State.reset with cond := .n })) (fun t => (t.reg .r0, t.cond, t.reg .r7, t.out))
      = some (0x00FF, .p, 0x3001, []) := by decide
/-- A host that yields nothing for one attempt: the step holds, and the next one ends the service. -/
theorem test_getc_holds :
    (after { place 0x3000 0xF020 with host := ⟨[], [0x00], 1, 0, false⟩ } (fun t => (t.svc, t.pc, after t (fun u => (u.cond, u.svc)))))
      = some (some .getc, 0x3001, some (.z, none)) := by decide
theorem test_out :
    after (place 0x3000 0xF021 (setReg .r0 0x1248 State.reset)) (fun t => (t.out, t.reg .r0)) = some ([0x48], 0x1248) := by decide
theorem test_puts :
    after (place 0x3000 0xF022 (cells [(0x4000, 0x0048), (0x4001, 0x1269)] (setReg .r0 0x4000 State.reset)))
      (fun t => (t.out, t.reg .r0, t.reg .r7)) = some ([0x48, 0x69], 0x4000, 0x3001) := by decide
theorem test_puts_polls_kbsr :
    after (place 0x3000 0xF022 (cells [(0xFDFF, 0x0041), (0xFE00, 0x1234)] (setReg .r0 0xFDFF (hosted [true] [0x78] State.reset))))
      (fun t => (t.out, t.word 0xFE00, t.word 0xFE02)) = some ([0x41, 0x00], 0x8000, 0x0078) := by decide
theorem test_in :
    after (place 0x3000 0xF023 (hosted [] [0x79] State.reset)) (fun t => (t.out, t.reg .r0, t.cond))
      = some ([] ++ Config.inPrompt ++ [0x79], 0x0079, .p) := by rfl
theorem test_putsp :
    after (place 0x3000 0xF024 (cells [(0x4000, 0x6948), (0x4001, 0x0021)] (setReg .r0 0x4000 State.reset))) (·.out)
      = some [0x48, 0x69, 0x21] := by decide
theorem test_putsp_zero_low_byte :
    after (place 0x3000 0xF024 (cells [(0x4000, 0x4100)] (setReg .r0 0x4000 State.reset))) (·.out) = some [0x00, 0x41] := by decide
theorem test_halt :
    after (place 0x3002 0xFF25) (fun t => (t.run, t.out, t.reg .r7, t.pc))
      = some (.halted, [] ++ Config.haltNotice, 0x3003, 0x3003) := by rfl
theorem test_trap_unknown :
    after (place 0x3000 0xF026) (fun t => (t.run, t.reg .r7))
      = some (.faulted ⟨.unknownTrapVector, 0x3000, 0xF026, some 0x26⟩, 0x3001) := by decide
theorem test_trap_zero :
    after (place 0x3000 0xF000) (·.run) = some (.faulted ⟨.unknownTrapVector, 0x3000, 0xF000, some 0x00⟩) := by decide

/-! ## Reserved opcodes and stopped machines: section 2.7 -/

theorem test_reserved1000 :
    after (place 0x3000 0x8000) (fun t => (t.run, t.pc)) = some (.faulted ⟨.reservedOpcode, 0x3000, 0x8000, none⟩, 0x3001) := by
  decide
theorem test_reserved1101 :
    after (place 0x3000 0xD123 { State.reset with cond := .p }) (fun t => (t.run, t.cond))
      = some (.faulted ⟨.reservedOpcode, 0x3000, 0xD123, none⟩, .p) := by decide
theorem test_halted_stays : next? { State.reset with run := .halted } = none := by decide

/-! ## Images: section 2.8 and S6 -/

theorem test_image_truncates :
    (loadImage [0xFF, 0xFF, 0x00, 0x01, 0x00, 0x02, 0x00, 0x03] []).toOption = some [(0xFFFF, 0x0001)] := by decide
theorem test_image_odd_byte : (loadImage [0x30, 0x00, 0x12, 0x34, 0x56] []).toOption = some [(0x3000, 0x1234)] := by decide
theorem test_image_later_wins :
    (loadImages [[0x30, 0x00, 0x00, 0x01, 0x00, 0x02, 0x00, 0x03], [0x30, 0x01, 0x00, 0x09]] []).toOption
      = some [(0x3000, 0x0001), (0x3001, 0x0009), (0x3002, 0x0003)] := by decide
theorem test_image_too_short : (loadImage [0x30] []).toOption = none ∧ (boot [[0x30]]).toOption = none := by decide

/-! ## The host's two probes -/

theorem test_withFetchWord : after (State.reset.withFetchWord 16 0x1025) (·.reg .r0) = some 0x0005 := by decide
theorem test_withFetchWord_at_kbsr :
    after (({ State.reset with pc := 0xFE00 } : State).withFetchWord 16 0x1025) (·.reg .r0) = some 0x0005 := by decide

/-! ## Witnesses: states and operands that meet the hypotheses of the statements, clause by clause -/

/-- A ready machine with `ADD R0, R0, #5` at PC. -/
def ready : State := place 0x3000 0x1025

/-- A host that finds no character at one attempt of a blocking read. -/
def stalled : State := { State.reset with host := ⟨[], [0x41], 1, 0, false⟩ }

/-- Parameters other than the spec's, a proper choice: GETC at vector 0x40, the keyboard at 0x4000 and 0x4001, start at 0x0200. -/
def other : Params :=
  { Params.spec with pcStart := 0x0200, kbsrAddr := 0x4000, kbdrAddr := 0x4001, kbsrReady := 0xFFFF, trapGetc := 0x40,
                     jsrrBaseAfterLink := false }

theorem witness_DecodeOfEncodeIsTheInstruction :
    WellFormed (.trap 3 0x26) = true ∧ WellFormed (.jmp 1 .r2 5) = true ∧
      other.wf = true ∧ WellFormed (.trap 3 0x20) other = true := by decide

/-- R2: the operations take the parameters they are given. -/
theorem test_parameters_decode : decodeWord 0xF040 other = .getc 0 ∧ decodeWord 0xF020 other = .trap 0 0x20 := by decide
theorem test_parameters_step :
    (match stepAt other (place 0x3FFE 0x2001 (hosted [true] [0x41] State.reset)) with
     | .next t => some (t.reg .r0, t.word 0x4001)
     | _ => none) = some (0xFFFF, 0x0041) := by decide

theorem witness_IgnoredBitsChangeNothing : isService 0x20 ∧ isService 0x25 := by unfold isService; decide

theorem witness_StepRunsTheDecodedInstruction : Ready ready ∧ ({ State.reset with run := .halted } : State).run ≠ .running :=
  ⟨⟨rfl, rfl, rfl⟩, by decide⟩

theorem witness_StepRunsTheStoredWord :
    Ready ready ∧ ready.pc ≠ 0xFE00 ∧ WellFormed (.addImm .r0 .r0 5) = true ∧ ready.word ready.pc = encode (.addImm .r0 .r0 5) :=
  ⟨⟨rfl, rfl, rfl⟩, by decide⟩

theorem witness_StepRunsTheStoredWord_after_a_store :
    (∃ t, exec (.st .r0 0) (setReg .r0 0xF025 State.reset) = .next t) ∧ Ready (setReg .r0 0xF025 State.reset) ∧
      eaPc 0 (setReg .r0 0xF025 State.reset) = (setReg .r0 0xF025 State.reset).pc ∧
      (setReg .r0 0xF025 State.reset).pc ≠ 0xFE00 :=
  ⟨⟨_, rfl⟩, ⟨rfl, rfl, rfl⟩, by decide⟩

theorem witness_FetchAtKbsrRunsTheFreshStatus (b : Bool) :
    Ready { hosted [b] [0x41] State.reset with pc := 0xFE00 } ∧
      (hostPoll { hosted [b] [0x41] State.reset with pc := 0xFE00 }).1 = b := ⟨⟨rfl, rfl, rfl⟩, rfl⟩

theorem witness_RunState_halts : ∃ t, step (place 0x3002 0xFF25) = .next t ∧ t.run = .halted := ⟨_, rfl, rfl⟩

theorem witness_RunState_faults :
    (∃ t, step (place 0x3000 0x8000) = .next t ∧ t.run = .faulted ⟨.reservedOpcode, 0x3000, 0x8000, none⟩) ∧
    (∃ t, step (place 0x3000 0xD123) = .next t ∧ t.run = .faulted ⟨.reservedOpcode, 0x3000, 0xD123, none⟩) ∧
    (∃ t, step (place 0x3000 0xF026) = .next t ∧ t.run = .faulted ⟨.unknownTrapVector, 0x3000, 0xF026, some 0x26⟩) :=
  ⟨⟨_, rfl, by decide⟩, ⟨_, rfl, by decide⟩, ⟨_, rfl, by decide⟩⟩

theorem witness_RunState_stopped :
    ({ State.reset with run := .halted } : State).run = .halted ∧
    ({ State.reset with run := .faulted ⟨.reservedOpcode, 0x2FFF, 0x8000, none⟩ } : State).run
      = .faulted ⟨.reservedOpcode, 0x2FFF, 0x8000, none⟩ := ⟨rfl, rfl⟩

theorem witness_RunningStepsAnswerNextUnlessAborted :
    State.reset.run = .running ∧ State.reset.host.abort = false ∧ ∃ t, step State.reset = .next t := ⟨rfl, rfl, ⟨_, rfl⟩⟩

/-- For each statement whose one hypothesis is that `exec` answers next. -/
theorem witness_exec_answers_next : ∀ i s, ∃ t, exec i s = .next t := by
  intro i s
  cases i <;> exact ⟨_, rfl⟩

theorem witness_SignExtensionOfFields : 0 < 1 ∧ 1 ≤ 16 ∧ 0 < 16 ∧ 16 ≤ 16 := by decide

theorem witness_FlagsAreSetByExactlyTheListedOperations :
    flagSource (.st .r0 0) = none ∧
    (flagSource (.getc 0) = some .r0 ∧ readsHost (.getc 0) ∧ (hostReadAttempt stalled).1 = none) ∧
    (flagSource (.addImm .r3 .r0 0) = some .r3 ∧ ¬readsHost (.addImm .r3 .r0 0)) ∧
    (flagSource (.trap 0 0x23) = some .r0 ∧ (hostReadAttempt (hosted [] [0x41] State.reset)).1 ≠ none) :=
  ⟨rfl, ⟨rfl, trivial, rfl⟩, ⟨rfl, id⟩, rfl, by decide⟩

theorem witness_CondIsReadOnlyByBr : (∀ nzp off9, Instr.addImm .r0 .r0 1 ≠ .br nzp off9) := by intros; simp

theorem witness_OnlyStoresWriteOrdinaryMemory :
    (∀ r o, Instr.ld .r0 1 ≠ .st r o ∧ Instr.ld .r0 1 ≠ .sti r o) ∧ (∀ r b o, Instr.ld .r0 1 ≠ .str r b o) := by simp

theorem witness_HostIsAskedOnlyByKeyboardReadsAndServices :
    eaPc 1 State.reset ≠ 0xFE00 ∧ eaBase .r1 1 State.reset ≠ 0xFE00 ∧ State.reset.word (eaPc 1 State.reset) ≠ 0xFE00 ∧
      ¬isService 0x26 ∧ ¬isService 0x1F := by
  unfold isService; decide

theorem witness_operate_words :
    (0x1283 : Word).extractLsb' 12 4 = 0b0001 ∧ (0x1283 : Word).extractLsb' 5 1 = 0 ∧
    (0x147E : Word).extractLsb' 12 4 = 0b0001 ∧ (0x147E : Word).extractLsb' 5 1 = 1 ∧
    (0x5642 : Word).extractLsb' 12 4 = 0b0101 ∧ (0x5642 : Word).extractLsb' 5 1 = 0 ∧
    (0x5270 : Word).extractLsb' 12 4 = 0b0101 ∧ (0x5270 : Word).extractLsb' 5 1 = 1 ∧
    (0x997F : Word).extractLsb' 12 4 = 0b1001 := by decide

theorem witness_control_words :
    (0x0403 : Word).extractLsb' 12 4 = 0b0000 ∧
    (0xC080 : Word).extractLsb' 12 4 = 0b1100 ∧ (0xC080 : Word).extractLsb' 6 3 ≠ 7 ∧
    (0xC1C0 : Word).extractLsb' 12 4 = 0b1100 ∧ (0xC1C0 : Word).extractLsb' 6 3 = 7 ∧
    (0x4FFF : Word).extractLsb' 11 5 = 0b01001 ∧ (0x40C0 : Word).extractLsb' 11 5 = 0b01000 := by decide

theorem witness_load_and_store_words :
    (0x2002 : Word).extractLsb' 12 4 = 0b0010 ∧ (0xA205 : Word).extractLsb' 12 4 = 0b1010 ∧
    (0x64FF : Word).extractLsb' 12 4 = 0b0110 ∧ (0xE9FD : Word).extractLsb' 12 4 = 0b1110 ∧
    (0x3004 : Word).extractLsb' 12 4 = 0b0011 ∧ (0x7C5F : Word).extractLsb' 12 4 = 0b0111 ∧
    (0xBA01 : Word).extractLsb' 12 4 = 0b1011 := by decide

theorem witness_BrWithoutConditionIsANoOp :
    Ready (place 0x3000 0x01FF) ∧ (place 0x3000 0x01FF).pc ≠ 0xFE00 ∧
      ((place 0x3000 0x01FF).word (place 0x3000 0x01FF).pc).toNat < 0x200 := ⟨⟨rfl, rfl, rfl⟩, by decide⟩

theorem witness_ReadsInterceptOnlyKbsr :
    (0xFDFF : Word) ≠ Params.spec.kbsrAddr ∧ (0xFE01 : Word) ≠ Params.spec.kbsrAddr ∧ (0xFE00 : Word) ≠ other.kbsrAddr ∧
      Params.spec.kbsrAddr ≠ Params.spec.kbdrAddr ∧ other.kbsrAddr ≠ other.kbdrAddr := by decide

theorem witness_KeyboardPollLatchesOrClears (b : Bool) :
    Params.spec.wf = true ∧ other.wf = true ∧ (hostPoll (hosted [b] [0x41] State.reset)).1 = b := ⟨by decide, by decide, rfl⟩

theorem witness_HostAnswersComeInOrder :
    (hosted [true] [] State.reset).host.polls = true :: [] ∧ (hosted [] [0x41] State.reset).host.chars = 0x41 :: [] ∧
      (hosted [] [0x41] State.reset).host.stall = 0 ∧ stalled.host.stall = 0 + 1 := ⟨rfl, rfl, rfl, rfl⟩

theorem witness_CanonicalMemoriesAreDeterminedByTheirWords :
    Memory.wf [(0x0000, 0x0001), (0xFFFF, 0x8000)] = true ∧ Memory.wf [] = true := by decide

theorem witness_LdLoadsPcRelative :
    eaPc 0 { State.reset with pc := 0xFDFF } ≠ 0xFE00 ∧ eaPc 1 { State.reset with pc := 0xFDFF } = 0xFE00 := by decide

theorem witness_LdiLoadsThroughThePointer :
    eaPc 5 (cells [(0x3005, 0x4000)] State.reset) ≠ 0xFE00 ∧
      (cells [(0x3005, 0x4000)] State.reset).word (eaPc 5 (cells [(0x3005, 0x4000)] State.reset)) ≠ 0xFE00 := by decide

theorem witness_LdrLoadsBasePlusOffset : eaBase .r3 0x3F State.reset ≠ 0xFE00 := by decide

theorem witness_StiStoresThroughThePointer : eaPc 1 State.reset ≠ 0xFE00 := by decide

theorem witness_TrapRunsTheServiceOfItsVector :
    ((0xF026 : Word).extractLsb' 12 4 = 0b1111 ∧ ¬isService ((0xF026 : Word).extractLsb' 0 8)) ∧
    ((0xF025 : Word).extractLsb' 12 4 = 0b1111 ∧ isService ((0xF025 : Word).extractLsb' 0 8)) ∧
    ¬((0x21 : BitVec 8) = 0x20 ∨ (0x21 : BitVec 8) = 0x23) := by
  unfold isService; decide

theorem witness_GetcReadsOneCharacter_and_IN :
    (hostReadAttempt (hosted [] [0x00] State.reset)).1 = some 0x00 ∧
    (hostReadAttempt (hosted [] [0xFF] State.reset)).1 = some 0xFF := ⟨rfl, rfl⟩

theorem witness_GetcAndInHoldUntilTheCharacter (v : Service) :
    (hostReadAttempt stalled).1 = none ∧ stalled.run = .running ∧ stalled.host.abort = false ∧
    (hostReadAttempt { stalled with svc := some v }).1 = none ∧ ({ stalled with svc := some v } : State).svc = some v ∧
    (hostReadAttempt { hosted [] [0x41] State.reset with svc := some v }).1 = some 0x41 := ⟨rfl, rfl, rfl, rfl, rfl, rfl⟩

/-- Two words in memory at 0, the second of them the zero word. -/
theorem witness_StringServicesRunToTheZeroWord (bytes : Word → List Byte) :
    ∃ u, StringRun bytes 2 ((cells [(0x0000, 0x6948)] State.reset).reg .r0) (linked (cells [(0x0000, 0x6948)] State.reset)) u :=
  ⟨_, .more (by decide) (.done rfl)⟩

theorem witness_PutsWritesTheStringInMemory :
    (0x0000 : Word) ∉ [(0x0041 : Word), 0x0042] ∧
    (∀ k, k ≤ 2 → (setReg .r0 0xFFFF State.reset).reg .r0 + BitVec.ofNat 16 k ≠ 0xFE00) ∧
    (∀ k, (h : k < 2) → (cells [(0xFFFF, 0x0041), (0x0000, 0x0042)] (setReg .r0 0xFFFF State.reset)).word
      ((setReg .r0 0xFFFF State.reset).reg .r0 + BitVec.ofNat 16 k) = [(0x0041 : Word), 0x0042][k]) ∧
    (cells [(0xFFFF, 0x0041), (0x0000, 0x0042)] (setReg .r0 0xFFFF State.reset)).word
      ((setReg .r0 0xFFFF State.reset).reg .r0 + BitVec.ofNat 16 2) = 0x0000 := by decide

/-- A machine whose next reads, up to `k` of them at KBSR, all give words that are not zero. -/
def NeverZero (k : Nat) (s : State) : Prop :=
  (∀ a, a ≠ Params.spec.kbsrAddr → s.word a ≠ 0x0000) ∧ s.host.polls = List.replicate k true ∧ s.host.chars = List.replicate k 0x41

theorem neverZero_read (k : Nat) (a : Word) (s : State) (h : NeverZero (k + 1) s) (bs : List Byte) :
    (memRead a s).1 ≠ 0x0000 ∧ ∃ j, k ≤ j ∧ NeverZero j { (memRead a s).2 with out := (memRead a s).2.out ++ bs } := by
  obtain ⟨hm, hp, hc⟩ := h
  by_cases ha : a = Params.spec.kbsrAddr
  · subst ha
    have e : afterRead Params.spec.kbsrAddr s = memWrite Params.spec.kbdrAddr (zext16 0x41) (memWrite Params.spec.kbsrAddr Params.spec.kbsrReady
        { s with host := { s.host with polls := List.replicate k true, chars := List.replicate k 0x41 } }) := by
      rw [afterRead_kbsr]
      simp [keyboardPoll, hostPoll, hostReadReady, hp, hc, List.replicate_succ]
    refine ⟨?_, k, Nat.le_refl k, ?_, ?_, ?_⟩
    · rw [memRead_fst, e, memWrite_word, memWrite_word, if_neg (by decide), if_pos rfl]; decide
    · intro b hb
      show (afterRead Params.spec.kbsrAddr s).word b ≠ 0
      rw [e, memWrite_word, memWrite_word, if_neg hb]
      split
      · decide
      · exact hm b hb
    · show (afterRead Params.spec.kbsrAddr s).host.polls = _; rw [e]; rfl
    · show (afterRead Params.spec.kbsrAddr s).host.chars = _; rw [e]; rfl
  · rw [memRead_plain _ _ ha]
    exact ⟨hm a ha, k + 1, Nat.le_succ k, hm, hp, hc⟩

theorem stringGoesOn_of_neverZero (bytes : Word → List Byte) (n : Nat) : ∀ (k : Nat) (a : Word) (s : State),
    n ≤ k → NeverZero k s → ∃ u b, StringGoesOn bytes n a s u b := by
  induction n with
  | zero => intro k a s _ _; exact ⟨s, a, .start⟩
  | succ n ih =>
    intro k a s hk h
    obtain ⟨k, rfl⟩ : ∃ j, k = j + 1 := ⟨k - 1, by omega⟩
    obtain ⟨h0, j, hj, hs⟩ := neverZero_read k a s h (bytes (memRead a s).1)
    obtain ⟨u, b, hu⟩ := ih j (a + 1) _ (by omega) hs
    exact ⟨u, b, .more h0 hu⟩

theorem read_filled (v : Word) (a : Nat) (l : List Nat) (h : a ∈ l) : Memory.read (l.map fun k => (k, v)) a = v := by
  induction l with
  | nil => cases h
  | cons k l ih =>
    simp only [List.map_cons, Memory.read_cons]
    split
    · rfl
    · next hk => exact ih ((List.mem_cons.1 h).resolve_left fun e => hk e.symm)

/-- The first `n` words of memory 0x0041, and a host with `n` polls that each find a character. -/
def filled (n : Nat) : State :=
  { State.reset with
    mem := (List.range n).map fun k => (k, 0x0041), host := ⟨List.replicate n true, List.replicate n 0x41, 0, 0, false⟩ }

theorem filled_neverZero (n : Nat) (h : ∀ a : Word, a.toNat < n) : NeverZero n (filled n) := by
  refine ⟨fun a _ => ?_, rfl, rfl⟩
  have : (filled n).word a = 0x0041 := read_filled 0x0041 a.toNat (List.range n) (List.mem_range.2 (h a))
  rw [this]; decide

/-- `NeverZero` speaks of memory and the host only. -/
theorem neverZero_linked (k : Nat) (s : State) (h : NeverZero k s) : NeverZero k (linked s) := h

theorem neverZero_service (k : Nat) (v : Service) (s : State) (h : NeverZero k s) : NeverZero k { s with svc := some v } := h

/-- Memory full of 0x0041, and a character at every poll. -/
theorem witness_LongStringsStayInProgress (bytes : Word → List Byte) :
    ∃ s u b, StringGoesOn bytes 65536 (s.reg .r0) (linked s) u b :=
  ⟨filled 65536, stringGoesOn_of_neverZero bytes 65536 65536 _ _ (Nat.le_refl _)
    (neverZero_linked _ _ (filled_neverZero 65536 fun a => a.isLt))⟩

theorem filled_runs (n : Nat) : (filled n).run = .running ∧ (filled n).host.abort = false := ⟨rfl, rfl⟩

theorem in_progress_of_neverZero (bytes : Word → List Byte) (n : Nat) (v : Service) (a : Word) (s : State) (h : NeverZero n s)
    (hr : s.run = .running ∧ s.host.abort = false) :
    ∃ t u b, t.run = .running ∧ t.host.abort = false ∧ t.svc = some v ∧ StringGoesOn bytes n a t u b :=
  have ⟨u, b, hu⟩ := stringGoesOn_of_neverZero bytes n n a _ (Nat.le_refl n) (neverZero_service n v s h)
  ⟨{ s with svc := some v }, u, b, hr.1, hr.2, rfl, hu⟩

/-- The same with the service already in progress: the string goes on past one model step. -/
theorem witness_LongStringsStayInProgress_still (bytes : Word → List Byte) (v : Service) (a : Word) :
    ∃ s u b, s.run = .running ∧ s.host.abort = false ∧ s.svc = some v ∧ StringGoesOn bytes 65536 a s u b :=
  in_progress_of_neverZero bytes 65536 v a (filled 65536) (filled_neverZero 65536 fun a => a.isLt) (filled_runs 65536)

theorem witness_LongStringsStayInProgress_carried_on (bytes : Word → List Byte) (v : Service) :
    State.reset.run = .running ∧ State.reset.host.abort = false ∧ ({ State.reset with svc := some v } : State).svc = some v ∧
      ∃ u, StringRun bytes 1 0x5000 { State.reset with svc := some v } u := ⟨rfl, rfl, rfl, _, .done rfl⟩

theorem witness_UnknownTrapVectorFaults : ¬isService 0x1F ∧ ¬isService 0x26 ∧ ¬isService 0x00 ∧ ¬isService 0xFF := by
  unfold isService; decide

theorem witness_ReservedOpcodesFault :
    (0x8FFF : Word).extractLsb' 12 4 = 0b1000 ∧ (0xD000 : Word).extractLsb' 12 4 = 0b1101 := by decide

theorem witness_FaultRecordNamesTheFetchedInstruction :
    (∃ t, step (place 0xFFFF 0x8001) = .next t ∧ t.run = .faulted ⟨.reservedOpcode, 0xFFFF, 0x8001, none⟩) ∧
    (∃ t, step (place 0xFFFF 0xF1FF) = .next t ∧ t.run = .faulted ⟨.unknownTrapVector, 0xFFFF, 0xF1FF, some 0xFF⟩) :=
  ⟨⟨_, rfl, by decide⟩, ⟨_, rfl, by decide⟩⟩

/-- An address the image covers and one it does not: the index is in range for 0x3000 and out of range for 0x3001. -/
theorem witness_ImageLoadsFromItsOrigin :
    (0x30 : Byte).toNat * 256 + (0x00 : Byte).toNat = (0x3000 : Word).toNat ∧
    2 * ((0x3000 : Word).toNat - 0x3000) + 1 < [(0x12 : Byte), 0x34, 0x56].length ∧
    ¬2 * ((0x3001 : Word).toNat - 0x3000) + 1 < [(0x12 : Byte), 0x34, 0x56].length := by decide

theorem witness_BootLoadsTheImagesInOrder :
    ([0x30] : List Byte) ∈ [[(0x30 : Byte)]] ∧ ([0x30] : List Byte).length < 2 ∧
    (∃ s, boot [[0x30, 0x00, 0xF0, 0x25]] = .ok s) ∧ (∀ b ∈ [[(0x30 : Byte), 0x00, 0xF0, 0x25]], 2 ≤ b.length) ∧
    (∃ m, loadImages [[0x30, 0x00, 0xF0, 0x25]] [] = .ok m) := ⟨by decide, by decide, ⟨_, rfl⟩, by decide, ⟨_, rfl⟩⟩

theorem witness_EveryStepKeepsTheInvariant : Invariant State.reset ∧ ∃ t, step State.reset = .next t :=
  ⟨⟨rfl, fun _ h => (by cases h), fun h => absurd rfl h⟩, ⟨_, rfl⟩⟩

/-- A state that holds a service in progress, and one that has faulted, meet the invariant too. -/
theorem witness_EveryStepKeepsTheInvariant_in_progress_and_faulted :
    Invariant { setReg .r7 0x3000 State.reset with svc := some .getc } ∧
    Invariant { State.reset with run := .faulted ⟨.reservedOpcode, 0x2FFF, 0x8000, none⟩ } :=
  ⟨⟨rfl, fun _ h => (by cases h), fun _ => ⟨rfl, rfl⟩⟩,
   ⟨rfl, fun _ h => (by cases h; exact ⟨rfl, rfl, rfl, .inl rfl⟩), fun h => absurd rfl h⟩⟩

theorem witness_OutputOnlyGrows :
    ∃ t, exec (.out 0) State.reset = .next t ∧ t.out ≠ State.reset.out := ⟨_, rfl, by decide⟩

end Sys2Proof.Tests
end

/-! PROOF. Sign extension (R4): what `sext16` is as a number and bit by bit. -/

namespace Sys2Proof.Machine

/-- R4 as a number; a field with its top bit set gains the `0x10000 - 2 ^ n` of the bits from `n` up. -/
theorem sext16_toNat {n : Nat} (hn : n ≤ 16) (f : BitVec n) : (sext16 f).toNat = sextNat f := by
  have hpow : 2 ^ n ≤ 2 ^ 16 := Nat.pow_le_pow_right (by decide) hn
  have hzext : (f.setWidth 16).toNat = f.toNat := BitVec.toNat_setWidth_of_le hn
  rw [sext16, BitVec.toNat_signExtend, hzext, BitVec.msb_eq_decide, sextNat]
  by_cases hsign : f.toNat < 2 ^ (n - 1)
  · simp [hsign]
  · simp only [hsign, Nat.not_lt.mp hsign, decide_true, if_true, if_false]
    omega

/-- R4 bit by bit: the field's own bits, then its top bit repeated. -/
theorem getLsbD_sext16 {n k : Nat} (hk : k < 16) (f : BitVec n) :
    (sext16 f).getLsbD k = if k < n then f.getLsbD k else f.getLsbD (n - 1) := by
  rw [sext16, BitVec.getLsbD_signExtend, BitVec.msb_eq_getLsbD_last]
  simp [hk]

end Sys2Proof.Machine

/-- Settles O12: the two readings of R4, each by its own law of `sext16`. -/
theorem signExtensionOfFields : Obligations.SignExtensionOfFields := by
  intro n _ hn f
  exact ⟨Sys2Proof.Machine.sext16_toNat hn f, fun k hk => Sys2Proof.Machine.getLsbD_sext16 hk f⟩

/-! PROOF. R19: the flag function. -/

namespace Sys2Proof.Machine

/-- R19: `condOf` is the condition that fits the value as a number. -/
theorem flagsFit_condOf (v : Word) : FlagsFit v (condOf v) := by
  have hsign : v.getLsbD 15 = decide (0x8000 ≤ v.toNat) := BitVec.msb_eq_getLsbD_last v ▸ BitVec.msb_eq_decide v
  have hzero : v = 0x0000 ↔ v.toNat = 0 := BitVec.toNat_inj.symm
  unfold FlagsFit condOf
  rw [hsign]
  split
  · simp_all
  · split
    · simp_all
    · simp_all; omega

/-- R19: N, for a value that is not zero and has bit 15 set. -/
theorem condOf_eq_n_iff (v : Word) : condOf v = .n ↔ v ≠ 0x0000 ∧ v.getLsbD 15 = true := by
  unfold condOf
  split
  · simp_all
  · split <;> simp_all

end Sys2Proof.Machine

section
open Sys2Proof Sys2Proof.Machine

/-- Settles O14, by the two readings of `condOf`. -/
theorem setccFollowsTheResult : Obligations.SetccFollowsTheResult :=
  fun _ v => ⟨flagsFit_condOf v, condOf_eq_n_iff v, rfl⟩

end

/-! PROOF. The blocking read of GETC and IN (R25, R98), and what every service routine leaves unchanged. -/

namespace Sys2Proof.Machine

section
variable (s : State)

@[simp] theorem hostReadAttempt_regs : (hostReadAttempt s).2.regs = s.regs := by rw [hostReadAttempt_frame]
@[simp] theorem hostReadAttempt_reg (r : Reg) : (hostReadAttempt s).2.reg r = s.reg r := by simp [State.reg]
@[simp] theorem hostReadAttempt_pc : (hostReadAttempt s).2.pc = s.pc := by rw [hostReadAttempt_frame]
@[simp] theorem hostReadAttempt_cond : (hostReadAttempt s).2.cond = s.cond := by rw [hostReadAttempt_frame]
@[simp] theorem hostReadAttempt_mem : (hostReadAttempt s).2.mem = s.mem := by rw [hostReadAttempt_frame]
@[simp] theorem hostReadAttempt_word (x : Word) : (hostReadAttempt s).2.word x = s.word x := by simp [State.word]
@[simp] theorem hostReadAttempt_run : (hostReadAttempt s).2.run = s.run := by rw [hostReadAttempt_frame]
@[simp] theorem hostReadAttempt_out : (hostReadAttempt s).2.out = s.out := by rw [hostReadAttempt_frame]

end

/-- R25: what an attempt yields depends on the host's side alone. -/
theorem hostReadAttempt_fst {s u : State} (h : u.host = s.host) : (hostReadAttempt u).1 = (hostReadAttempt s).1 := by
  unfold hostReadAttempt
  rw [h]
  split <;> rfl

@[simp] theorem hostReadAttempt_linkR7_fst (s : State) : (hostReadAttempt (linkR7 s)).1 = (hostReadAttempt s).1 :=
  hostReadAttempt_fst rfl

@[simp] theorem hostReadAttempt_hostWriteAll_fst (bs : List Byte) (s : State) :
    (hostReadAttempt (hostWriteAll bs s)).1 = (hostReadAttempt s).1 := hostReadAttempt_fst rfl

/-- R92, R95: a routine's end that echoes some bytes, then puts the character in R0 and sets the flags from it. -/
def EndsInR0 (echo : Byte → List Byte) (finish : Byte → State → State) : Prop :=
  ∀ c u, finish c u = writeResult .r0 (zext16 c) (hostWriteAll (echo c) u)

theorem getcFinish_endsInR0 : EndsInR0 (fun _ => []) getcFinish := fun c u => by
  simp [getcFinish, hostWriteAll]

theorem inFinish_endsInR0 : EndsInR0 (fun c => [c]) inFinish := fun _ _ => rfl

/-- R92-R97, R99: what a service routine leaves unchanged, whatever it reads and whatever the host answers. -/
structure RoutineFrame (P : Params) (s t : State) : Prop where
  reg : ∀ r, r ≠ .r0 → t.reg r = s.reg r
  pc : t.pc = s.pc
  abort : t.host.abort = s.host.abort
  wf : s.mem.wf = true → t.mem.wf = true
  word : ∀ x, x ≠ P.kbsrAddr → x ≠ P.kbdrAddr → t.word x = s.word x
  out : ∃ bs, t.out = s.out ++ bs

section
variable {echo : Byte → List Byte} {finish : Byte → State → State} {P : Params}

/-- R98: a blocking read ends with R0 and the flags set, or holds. -/
theorem awaitChar_frame (hf : EndsInR0 echo finish) (held : Service) (s : State) :
    RoutineFrame P s (awaitChar held finish s) := by
  cases hc : (hostReadAttempt s).1 with
  | none =>
    rw [awaitChar_none _ _ _ hc]
    exact ⟨by simp, by simp, hostReadAttempt_abort s, by simp, by simp, [], by simp⟩
  | some c =>
    rw [awaitChar_some _ _ _ hc, hf]
    exact ⟨fun r hr => by simp [hr], by simp, hostReadAttempt_abort s, by simp, by simp, echo c, by simp⟩

theorem awaitChar_run (hf : EndsInR0 echo finish) (held : Service) (s : State) :
    (awaitChar held finish s).run = s.run := by
  cases hc : (hostReadAttempt s).1 with
  | none => simp [awaitChar_none _ _ _ hc]
  | some c => simp [awaitChar_some _ _ _ hc, hf c]

/-- R20: with no character yet a blocking read leaves the flags alone. -/
theorem awaitChar_cond_of_none {s : State} (hc : (hostReadAttempt s).1 = none) (held : Service) :
    (awaitChar held finish s).cond = s.cond := by
  simp [awaitChar_none _ _ _ hc]

/-- R20: with a character it leaves the flags that fit R0. -/
theorem awaitChar_flags (hf : EndsInR0 echo finish) {s : State} (hc : (hostReadAttempt s).1 ≠ none) (held : Service) :
    FlagsFit ((awaitChar held finish s).reg .r0) (awaitChar held finish s).cond := by
  obtain ⟨c, hc⟩ := Option.ne_none_iff_exists'.mp hc
  simp [awaitChar_some _ _ _ hc, hf c, flagsFit_condOf]

/-- R92: GETC writes no output. -/
theorem getcRead_out (s : State) : (getcRead s).out = s.out := by
  unfold getcRead
  cases hc : (hostReadAttempt s).1 with
  | none => simp [awaitChar_none _ _ _ hc]
  | some c => simp [awaitChar_some _ _ _ hc, getcFinish]

/-- What the loop of the string services leaves unchanged is more than a routine's frame. -/
theorem StringFrame.routineFrame {s t : State} (h : StringFrame P s t) : RoutineFrame P s t :=
  ⟨fun r _ => by rw [State.reg_def, h.regs, State.reg_def], h.pc, h.abort, h.wf, h.word, h.out⟩

/-- A routine may begin by writing output. -/
theorem RoutineFrame.of_hostWriteAll {s t : State} {bs : List Byte} (h : RoutineFrame P (hostWriteAll bs s) t) :
    RoutineFrame P s t := by
  obtain ⟨hreg, hpc, habort, hwf, hword, cs, hout⟩ := h
  exact ⟨hreg, hpc, habort, hwf, hword, bs ++ cs, by simpa using hout⟩

/-- R91: every service routine keeps the frame; of the registers, R0 alone may change. -/
theorem runService_frame (n : ServiceName) (s : State) : RoutineFrame P s (runService n s P) := by
  cases n with
  | getc => exact awaitChar_frame getcFinish_endsInR0 ..
  | inChar => exact (awaitChar_frame inFinish_endsInR0 ..).of_hostWriteAll
  | puts | putsp => exact (stringLoop_frame ..).routineFrame
  | out | halt => exact ⟨fun _ _ => rfl, rfl, rfl, id, fun _ _ _ => rfl, _, rfl⟩

/-- R97: HALT alone ends the run. -/
theorem runService_run (n : ServiceName) (s : State) :
    (runService n s P).run = if n = .halt then .halted else s.run := by
  cases n with
  | getc => exact awaitChar_run getcFinish_endsInR0 ..
  | inChar => exact awaitChar_run inFinish_endsInR0 ..
  | puts | putsp => exact (stringLoop_frame ..).run
  | out | halt => rfl

/-- R98, R129: a service carried on keeps the frame too. -/
theorem resumeService_frame (v : Service) (s : State) : RoutineFrame P s (resumeService v s P) := by
  cases v with
  | getc => exact awaitChar_frame getcFinish_endsInR0 ..
  | inChar => exact awaitChar_frame inFinish_endsInR0 ..
  | puts | putsp => exact (stringLoop_frame ..).routineFrame

theorem resumeService_run (v : Service) (s : State) : (resumeService v s P).run = s.run := by
  cases v with
  | getc => exact awaitChar_run getcFinish_endsInR0 ..
  | inChar => exact awaitChar_run inFinish_endsInR0 ..
  | puts | putsp => exact (stringLoop_frame ..).run

/-- R91: the services that make a blocking read, and so write R0 and set the flags. -/
def readsChar : ServiceName → Bool
  | .getc | .inChar => true
  | .out | .puts | .putsp | .halt => false

/-- R10, R20: the other services write no register and leave the flags alone. -/
theorem runService_regs_cond {n : ServiceName} (hn : readsChar n = false) (s : State) :
    (runService n s P).regs = s.regs ∧ (runService n s P).cond = s.cond := by
  cases n with
  | getc | inChar => cases hn
  | puts | putsp => exact ⟨(stringLoop_frame ..).regs, (stringLoop_frame ..).cond⟩
  | out | halt => exact ⟨rfl, rfl⟩

theorem runService_cond_of_none {n : ServiceName} (hn : readsChar n = true) {s : State}
    (hc : (hostReadAttempt s).1 = none) : (runService n s P).cond = s.cond := by
  cases n with
  | getc => exact awaitChar_cond_of_none hc _
  | inChar => exact awaitChar_cond_of_none (s := hostWriteAll P.inPrompt s) (by simpa using hc) _
  | out | puts | putsp | halt => cases hn

theorem runService_flags {n : ServiceName} (hn : readsChar n = true) {s : State}
    (hc : (hostReadAttempt s).1 ≠ none) :
    FlagsFit ((runService n s P).reg .r0) (runService n s P).cond := by
  cases n with
  | getc => exact awaitChar_flags getcFinish_endsInR0 hc _
  | inChar =>
    exact awaitChar_flags inFinish_endsInR0 (s := hostWriteAll P.inPrompt s) (by simpa using hc) _
  | out | puts | putsp | halt => cases hn

end

end Sys2Proof.Machine

/-! PROOF. What an instruction can do, said once: the inversion of `exec`. -/

namespace Sys2Proof.Machine

open Sys2Proof.Spec

/-- R91: the service an instruction calls, by its own row or as TRAP with that service's vector. -/
def serviceCalled : Instr → Option ServiceName
  | .trap _ v => Params.spec.serviceOf v
  | .getc _ => some .getc
  | .out _ => some .out
  | .puts _ => some .puts
  | .inChar _ => some .inChar
  | .putsp _ => some .putsp
  | .halt _ => some .halt
  | _ => none

/-- `Effect s i t`: run in `s`, the instruction `i` leaves `t`. The six service rows and TRAP with a service's vector are one case. -/
inductive Effect (s : State) : Instr → State → Prop
  | addReg {dr a b g} : Effect s (.addReg dr a g b) (writeResult dr (s.reg a + s.reg b) s)
  | addImm {dr a imm5} : Effect s (.addImm dr a imm5) (writeResult dr (s.reg a + sext16 imm5) s)
  | andReg {dr a b g} : Effect s (.andReg dr a g b) (writeResult dr (s.reg a &&& s.reg b) s)
  | andImm {dr a imm5} : Effect s (.andImm dr a imm5) (writeResult dr (s.reg a &&& sext16 imm5) s)
  | not {dr a g} : Effect s (.not dr a g) (writeResult dr (~~~s.reg a) s)
  | br {nzp off9} : Effect s (.br nzp off9) (if maskSelects nzp s.cond then setPc (eaPc off9 s) s else s)
  | jmp {hi base lo} : Effect s (.jmp hi base lo) (setPc (s.reg base) s)
  | ret {hi lo} : Effect s (.ret hi lo) (setPc (s.reg .r7) s)
  | jsr {off11} : Effect s (.jsr off11) (setPc (eaPc11 off11 s) (linkR7 s))
  | jsrr {hi base lo} : Effect s (.jsrr hi base lo) (setPc ((linkR7 s).reg base) (linkR7 s))
  | ld {dr off9} : Effect s (.ld dr off9) (loadTo dr (eaPc off9 s) s)
  | ldi {dr off9} :
    Effect s (.ldi dr off9) (loadTo dr (memRead (eaPc off9 s) s).1 (afterRead (eaPc off9 s) s))
  | ldr {dr base off6} : Effect s (.ldr dr base off6) (loadTo dr (eaBase base off6 s) s)
  | lea {dr off9} : Effect s (.lea dr off9) (writeResult dr (eaPc off9 s) s)
  | st {sr off9} : Effect s (.st sr off9) (storeFrom sr (eaPc off9 s) s)
  | sti {sr off9} :
    Effect s (.sti sr off9) (storeFrom sr (memRead (eaPc off9 s) s).1 (afterRead (eaPc off9 s) s))
  | str {sr base off6} : Effect s (.str sr base off6) (storeFrom sr (eaBase base off6 s) s)
  | service {i n} (hn : serviceCalled i = some n) : Effect s i (runService n (linkR7 s))
  | unknownVector {g v} (hv : Params.spec.serviceOf v = none) :
    Effect s (.trap g v) (raiseFault .unknownTrapVector (encode (.trap g v)) (some v) (linkR7 s))
  | reserved1000 {g} : Effect s (.reserved1000 g) (raiseFault .reservedOpcode (encode (.reserved1000 g)) none s)
  | reserved1101 {g} : Effect s (.reserved1101 g) (raiseFault .reservedOpcode (encode (.reserved1101 g)) none s)

/-- R83-R85: a load is a read, then a result. -/
@[simp] theorem loadTo_eq (dr : Reg) (a : Word) (s : State) (P : Params) :
    loadTo dr a s P = writeResult dr (memRead a s P).1 (afterRead a s P) := rfl

/-- R87-R89: a store is a plain write of the register. -/
@[simp] theorem storeFrom_eq (sr : Reg) (a : Word) (s : State) : storeFrom sr a s = memWrite a (s.reg sr) s := rfl

variable {i : Instr} {n : ServiceName} {s t : State}

/-- R90, R91: TRAP links R7, then runs the service its vector selects or faults. -/
theorem trap_effect {g : BitVec 4} {v : BitVec 8} (h : exec (.trap g v) s = .next t) : Effect s (.trap g v) t := by
  obtain rfl := Host.Outcome.next.inj h
  cases hv : Params.spec.serviceOf v with
  | none => exact .unknownVector hv
  | some n => exact .service hv

/-- R49, R65: all that an instruction can do. -/
theorem exec_effect (h : exec i s = .next t) : Effect s i t := by
  cases i with
  | trap g v => exact trap_effect h
  | getc => exact Host.Outcome.next.inj h ▸ .service (n := .getc) rfl
  | out => exact Host.Outcome.next.inj h ▸ .service (n := .out) rfl
  | puts => exact Host.Outcome.next.inj h ▸ .service (n := .puts) rfl
  | inChar => exact Host.Outcome.next.inj h ▸ .service (n := .inChar) rfl
  | putsp => exact Host.Outcome.next.inj h ▸ .service (n := .putsp) rfl
  | halt => exact Host.Outcome.next.inj h ▸ .service (n := .halt) rfl
  | _ => exact Host.Outcome.next.inj h ▸ by constructor

/-- R91: the row of a service's own. -/
def serviceRow (g : BitVec 4) : ServiceName → Instr
  | .getc => .getc g
  | .out => .out g
  | .puts => .puts g
  | .inChar => .inChar g
  | .putsp => .putsp g
  | .halt => .halt g

/-- R91: an instruction that calls a service is that service's row or TRAP with its vector. -/
theorem serviceCalled_cases (hn : serviceCalled i = some n) :
    ∃ g, i = serviceRow g n ∨ i = .trap g (Params.spec.vectorOf n) := by
  cases i with
  | trap g v => exact ⟨g, .inr (congrArg _ (Params.eq_vectorOf hn))⟩
  | getc g | out g | puts g | inChar g | putsp g | halt g => cases hn; exact ⟨g, .inl rfl⟩
  | _ => cases hn

theorem exec_of_service (hn : serviceCalled i = some n) (s : State) : exec i s = .next (runService n (linkR7 s)) := by
  obtain ⟨g, rfl | rfl⟩ := serviceCalled_cases hn <;> cases n <;> rfl

/-- R84: LDI reads twice. -/
theorem exec_ldi (dr : Reg) (off9 : BitVec 9) (s : State) : exec (.ldi dr off9) s =
    .next (loadTo dr (memRead (eaPc off9 s) s).1 (memRead (eaPc off9 s) s).2) := rfl

/-- R88: STI reads once. -/
theorem exec_sti (sr : Reg) (off9 : BitVec 9) (s : State) : exec (.sti sr off9) s =
    .next (storeFrom sr (memRead (eaPc off9 s) s).1 (memRead (eaPc off9 s) s).2) := rfl

theorem exec_of_unknownVector {v : BitVec 8} (hv : Params.spec.serviceOf v = none) (g : BitVec 4) (s : State) :
    exec (.trap g v) s = .next (raiseFault .unknownTrapVector (encode (.trap g v)) (some v) (linkR7 s)) := by
  simp [exec, execTrap, hv]

theorem regsWritten_of_service (hn : serviceCalled i = some n) :
    regsWritten i = if readsChar n then [.r7, .r0] else [.r7] := by
  obtain ⟨g, rfl | rfl⟩ := serviceCalled_cases hn <;> cases n <;> rfl

theorem flagSource_of_service (hn : serviceCalled i = some n) :
    flagSource i = if readsChar n then some .r0 else none := by
  obtain ⟨g, rfl | rfl⟩ := serviceCalled_cases hn <;> cases n <;> rfl

theorem readsHost_of_service (hn : serviceCalled i = some n) : readsHost i ↔ readsChar n = true := by
  obtain ⟨g, rfl | rfl⟩ := serviceCalled_cases hn
  · cases n <;> simp [serviceRow, readsHost, readsChar]
  · rw [readsHost, Params.serviceOf_vectorOf Params.spec_wf]
    cases n <;> simp [readsChar]

theorem pcAfter_of_service (hn : serviceCalled i = some n) (s : State) : pcAfter i s = s.pc.toNat := by
  obtain ⟨g, rfl | rfl⟩ := serviceCalled_cases hn <;> cases n <;> rfl

/-- R91: the vectors of the services are those from 0x20 to 0x25. -/
theorem serviceOf_eq_none_iff (v : BitVec 8) : Params.spec.serviceOf v = none ↔ ¬isService v := by
  unfold isService
  revert v
  decide

end Sys2Proof.Machine

/-! PROOF. R9, R10, R13: what an instruction leaves in the registers and in PC. -/

namespace Sys2Proof.Machine

open Sys2Proof.Spec

variable {i : Instr} {n : ServiceName}

/-- R28: every register is 0 at reset. -/
theorem reset_reg (r : Reg) : State.reset.reg r = 0x0000 := by cases r <;> rfl

/-- R10: a service writes R7 by TRAP's link and, where it reads a character, R0. -/
theorem service_sameRegs (hn : serviceCalled i = some n) (s : State) :
    SameRegsBut (regsWritten i) s (runService n (linkR7 s)) := by
  intro r hr
  rw [regsWritten_of_service hn] at hr
  cases hread : readsChar n with
  | true =>
    obtain ⟨h7, h0⟩ : r ≠ .r7 ∧ r ≠ .r0 := by simpa [hread] using hr
    simp [(runService_frame (P := Params.spec) n (linkR7 s)).reg r h0, h7]
  | false =>
    have h7 : r ≠ .r7 := by simpa [hread] using hr
    obtain ⟨hregs, -⟩ := runService_regs_cond (P := Params.spec) hread (linkR7 s)
    rw [State.reg_def, hregs, ← State.reg_def]
    simp [h7]

/-- R10: TRAP writes R7, whatever its vector. -/
theorem r7_mem_regsWritten_trap (g : BitVec 4) (v : BitVec 8) : .r7 ∈ regsWritten (.trap g v) := by
  simp only [regsWritten]
  split <;> simp

/-- R59, R76: the mask selects COND exactly where the bit of the flag that holds is set. -/
theorem maskSelects_iff (nzp : BitVec 3) (c : Cond) :
    maskSelects nzp c = true ↔
      (nzp.getLsbD 2 ∧ c = .n) ∨ (nzp.getLsbD 1 ∧ c = .z) ∨ (nzp.getLsbD 0 ∧ c = .p) := by
  revert nzp
  cases c <;> decide

/-- R54-R57: an offset added to an address, as a number. -/
theorem toNat_add_sext16 {w : Nat} (hw : w ≤ 16) (a : Word) (off : BitVec w) :
    (a + sext16 off).toNat = (a.toNat + sextNat off) % 65536 := by
  rw [BitVec.toNat_add, sext16_toNat hw]

end Sys2Proof.Machine

section
open Sys2Proof Sys2Proof.Machine Sys2Proof.Spec

/-- Settles O13: the reset file is zero, and a register write is read back. -/
theorem registerReadsGiveTheLastWrite : Obligations.RegisterReadsGiveTheLastWrite :=
  ⟨reset_reg, fun s r q v => setReg_reg s r v q⟩

/-- Settles O17, by the cases of what an instruction can do; the services by their common frame. -/
theorem registersChangeOnlyAsTheTableSays : Obligations.RegistersChangeOnlyAsTheTableSays := by
  intro i s t h
  cases exec_effect h with
  | service hn => exact service_sameRegs hn s
  | br => intro r _; split <;> rfl
  | unknownVector =>
    intro r hr
    have h7 : r ≠ .r7 := fun h => hr (h ▸ r7_mem_regsWritten_trap ..)
    simp [h7]
  | _ => intro r hr; simp_all [regsWritten]

/-- Settles O18: BR by its mask, the jumps by their target; every service leaves PC alone. -/
theorem pcAfterEachInstruction : Obligations.PcAfterEachInstruction := by
  intro i s t h
  cases exec_effect h with
  | service hn => rw [pcAfter_of_service hn, (runService_frame (P := Params.spec) ..).pc, linkR7_pc]
  | @br nzp off9 =>
    simp only [pcAfter, ← maskSelects_iff]
    split
    · exact toNat_add_sext16 (by decide) s.pc off9
    · rfl
  | @jsr off11 => exact toNat_add_sext16 (by decide) s.pc off11
  | jsrr => simp only [pcAfter, setPc_pc, linkR7_reg]; split <;> rfl
  | _ => simp [pcAfter]

end

/-! PROOF. R20: which operations set the flags. -/

section
open Sys2Proof Sys2Proof.Machine Sys2Proof.Spec

/-- Settles O15: GETC and IN by whether the host yields the character, all other instructions by what they write. -/
theorem flagsAreSetByExactlyTheListedOperations : Obligations.FlagsAreSetByExactlyTheListedOperations := by
  intro i s t h
  cases exec_effect h with
  | @service _ n hn =>
    rw [flagSource_of_service hn, readsHost_of_service hn]
    cases hread : readsChar n with
    | false =>
      obtain ⟨-, hcond⟩ := runService_regs_cond (P := Params.spec) hread (linkR7 s)
      simp [hcond]
    | true =>
      refine ⟨by simp, fun _ _ _ hc => ?_, fun r hr hc => ?_⟩
      · exact runService_cond_of_none hread (s := linkR7 s) (by simpa using hc)
      · obtain rfl : Reg.r0 = r := by simpa using hr
        exact runService_flags hread (s := linkR7 s) (by simpa using hc)
  | br =>
    refine ⟨fun _ => ?_, by simp [flagSource], by simp [flagSource]⟩
    split <;> rfl
  | unknownVector hv => simp [flagSource, hv]
  | _ => simp [flagSource, readsHost, flagsFit_condOf]

end

/-! PROOF. R18: COND is read only by BR. -/

namespace Sys2Proof.Machine

/-- The state with another COND. -/
def setCond (c : Cond) (s : State) : State := { s with cond := c }

variable (c : Cond) (s : State) {P : Params}

@[simp] theorem writeResult_setCond (dr : Reg) (v : Word) : writeResult dr v (setCond c s) = writeResult dr v s := rfl
@[simp] theorem linkR7_setCond : linkR7 (setCond c s) = setCond c (linkR7 s) := rfl
@[simp] theorem memWrite_setCond (a v : Word) : memWrite a v (setCond c s) = setCond c (memWrite a v s) := rfl
@[simp] theorem hostWriteAll_setCond (bs : List Byte) :
    hostWriteAll bs (setCond c s) = setCond c (hostWriteAll bs s) := rfl
@[simp] theorem setService_setCond (v : Option Service) :
    setService v (setCond c s) = setCond c (setService v s) := rfl
@[simp] theorem raiseFault_setCond (k : FaultCause) (w : Word) (v : Option (BitVec 8)) :
    raiseFault k w v (setCond c s) = setCond c (raiseFault k w v s) := rfl
@[simp] theorem eaPc_setCond (off9 : BitVec 9) : eaPc off9 (setCond c s) = eaPc off9 s := rfl
@[simp] theorem setCond_host : (setCond c s).host = s.host := rfl
@[simp] theorem setCond_word (a : Word) : (setCond c s).word a = s.word a := rfl

@[simp] theorem hostPoll_setCond : hostPoll (setCond c s) = ((hostPoll s).1, setCond c (hostPoll s).2) := by
  unfold hostPoll
  rw [setCond_host]
  split <;> rfl

@[simp] theorem hostReadReady_setCond :
    hostReadReady (setCond c s) = ((hostReadReady s).1, setCond c (hostReadReady s).2) := by
  unfold hostReadReady
  rw [setCond_host]
  split <;> rfl

@[simp] theorem hostReadAttempt_setCond :
    hostReadAttempt (setCond c s) = ((hostReadAttempt s).1, setCond c (hostReadAttempt s).2) := by
  unfold hostReadAttempt
  rw [setCond_host]
  split <;> rfl

@[simp] theorem keyboardPoll_setCond : keyboardPoll (setCond c s) P = setCond c (keyboardPoll s P) := by
  cases h : (hostPoll s).1 with
  | false => simp [keyboardPoll_false, h]
  | true => simp [keyboardPoll_true, h]

@[simp] theorem afterRead_setCond (a : Word) : afterRead a (setCond c s) P = setCond c (afterRead a s P) := by
  unfold afterRead
  split
  · exact keyboardPoll_setCond c s
  · rfl

@[simp] theorem memRead_setCond (a : Word) :
    memRead a (setCond c s) P = ((memRead a s P).1, setCond c (afterRead a s P)) := by
  simp [memRead]

/-- R83-R85: a load overwrites COND. -/
theorem loadTo_setCond (dr : Reg) (a : Word) :
    loadTo dr a (setCond c s) P = setCond (condOf (memRead a s P).1) (loadTo dr a s P) := by
  rw [loadTo_eq, memRead_setCond, afterRead_setCond, writeResult_setCond]
  rfl

@[simp] theorem stringLoop_setCond (held : Word → Service) (bytes : Word → List Byte) (n : Nat) (a : Word) :
    stringLoop held bytes n a (setCond c s) P = setCond c (stringLoop held bytes n a s P) := by
  induction n generalizing a s with
  | zero => rfl
  | succ n ih =>
    rw [stringLoop_succ, stringLoop_succ, memRead_setCond, afterRead_setCond]
    split
    · rfl
    · rw [hostWriteAll_setCond, ih]

/-- R92, R95: a blocking read overwrites COND where a character is there, and else leaves it. -/
theorem awaitChar_setCond {echo : Byte → List Byte} {finish : Byte → State → State} (hf : EndsInR0 echo finish)
    (held : Service) : ∃ d, awaitChar held finish (setCond c s) = setCond d (awaitChar held finish s) := by
  cases hc : (hostReadAttempt s).1 with
  | none => exact ⟨c, by simp [awaitChar_none, hc]⟩
  | some b =>
    have hc' : (hostReadAttempt (setCond c s)).1 = some b := by simpa using hc
    refine ⟨condOf (zext16 b), ?_⟩
    rw [awaitChar_some _ _ _ hc', awaitChar_some _ _ _ hc, hostReadAttempt_setCond, hf, hf]
    rfl

theorem runService_setCond (n : ServiceName) :
    ∃ d, runService n (setCond c s) P = setCond d (runService n s P) := by
  cases n with
  | getc => exact awaitChar_setCond c s getcFinish_endsInR0 _
  | inChar => exact awaitChar_setCond c (hostWriteAll P.inPrompt s) inFinish_endsInR0 _
  | puts | putsp => exact ⟨c, stringLoop_setCond ..⟩
  | out | halt => exact ⟨c, rfl⟩

/-- R18: an instruction other than BR does the same for another COND, but for the COND it leaves. -/
theorem exec_setCond {i : Instr} {s t : State} (hbr : ∀ nzp off9, i ≠ .br nzp off9) (h : exec i s = .next t) :
    ∃ d, exec i (setCond c s) = .next (setCond d t) := by
  cases exec_effect h with
  | br => exact absurd rfl (hbr _ _)
  | @service _ n hn =>
    obtain ⟨d, hd⟩ := runService_setCond c (linkR7 s) n (P := Params.spec)
    exact ⟨d, by rw [exec_of_service hn, linkR7_setCond, hd]⟩
  | ld | ldr => exact ⟨_, congrArg Host.Outcome.next (loadTo_setCond ..)⟩
  | ldi =>
    rw [exec_ldi, eaPc_setCond, memRead_setCond]
    exact ⟨_, congrArg Host.Outcome.next (loadTo_setCond ..)⟩
  | sti =>
    rw [exec_sti, eaPc_setCond, memRead_setCond]
    exact ⟨c, rfl⟩
  | unknownVector hv => exact ⟨c, by simp [exec_of_unknownVector hv]⟩
  | addReg | addImm | andReg | andImm | not | lea => exact ⟨condOf _, rfl⟩
  | _ => exact ⟨c, rfl⟩

end Sys2Proof.Machine

section
open Sys2Proof Sys2Proof.Machine Sys2Proof.Spec

/-- Settles O16: every operation but BR's mask test commutes with setting COND, or overwrites it. -/
theorem condIsReadOnlyByBr : Obligations.CondIsReadOnlyByBr := by
  intro i s c t hbr h
  obtain ⟨d, hd⟩ := exec_setCond c hbr h
  exact ⟨setCond d t, hd, rfl⟩

end

/-! PROOF. R24, R25: what asks the host. -/

section
open Sys2Proof Sys2Proof.Machine Sys2Proof.Spec

/-- Settles O34, by the definitions of the three host calls. -/
theorem hostAnswersComeInOrder : Obligations.HostAnswersComeInOrder := by
  refine ⟨fun s b rest h => ?_, fun s c rest h => ?_, fun s c rest => hostReadAttempt_cons s,
    fun s k => hostReadAttempt_stall s⟩
  · rw [hostPoll, h]
  · rw [hostReadReady, h]

/-- Settles O20: a read away from KBSR leaves the state as it is, and the other operations do not touch the host's side. -/
theorem hostIsAskedOnlyByKeyboardReadsAndServices : Obligations.HostIsAskedOnlyByKeyboardReadsAndServices := by
  intro i s t h hi
  cases exec_effect h with
  | @service _ n hn =>
    obtain ⟨g, rfl | rfl⟩ := serviceCalled_cases hn
    · cases n with
      | out | halt => rfl
      | getc | inChar | puts | putsp => exact hi.elim
    · cases hn.symm.trans ((serviceOf_eq_none_iff _).mpr hi)
  | br => split <;> rfl
  | ld | ldr | sti => simp [afterRead_plain (P := Params.spec) _ _ hi]
  | ldi =>
    obtain ⟨hptr, hdata⟩ := hi
    simp [memRead_plain (P := Params.spec) _ _ hptr, afterRead_plain (P := Params.spec) _ _ hptr,
      afterRead_plain (P := Params.spec) _ _ hdata]
  | _ => rfl

end

/-! PROOF. R26: the output. -/

namespace Sys2Proof.Machine

open Sys2Proof.Spec

variable {i : Instr} {n : ServiceName} {s t : State}

/-- R26: the output grows by what a service writes; no other instruction writes any. -/
theorem Effect.out_eq (h : Effect s i t) : t.out = s.out ∨ ∃ n, serviceCalled i = some n ∧ t = runService n (linkR7 s) := by
  cases h with
  | @service _ n hn => exact .inr ⟨n, hn, rfl⟩
  | br => left; split <;> rfl
  | _ => left; simp

theorem Effect.out_grows (h : Effect s i t) : ∃ bs, t.out = s.out ++ bs := by
  rcases h.out_eq with h | ⟨n, -, rfl⟩
  · exact ⟨[], by simp [h]⟩
  · exact (runService_frame (P := Params.spec) n (linkR7 s)).out

/-- R100: every step leaves the output with what it held, then what the step wrote. -/
theorem step_out_grows (h : step s = .next t) : ∃ bs, t.out = s.out ++ bs := by
  obtain ⟨-, -, ⟨-, h⟩ | ⟨v, -, rfl⟩⟩ := step_cases h
  · simpa using (exec_effect h).out_grows
  · exact (resumeService_frame (P := Params.spec) v s).out

theorem rowOf_of_service (hn : serviceCalled i = some n) :
    (rowOf i).2 = "TRAP" ∧ ((rowOf i).1 = "GETC" → n = .getc) := by
  obtain ⟨g, rfl | rfl⟩ := serviceCalled_cases hn <;> cases n <;> simp [serviceRow, rowOf]

end Sys2Proof.Machine

section
open Sys2Proof Sys2Proof.Machine Sys2Proof.Spec

/-- Settles O60: only a service can change the output, and GETC does not. -/
theorem outputOnlyGrows : Obligations.OutputOnlyGrows := by
  refine ⟨fun s t => step_out_grows, fun i s t h hout => ?_⟩
  obtain ⟨n, hn, rfl⟩ := (exec_effect h).out_eq.resolve_left hout
  have hgetc : n ≠ .getc := by
    rintro rfl
    exact hout (getcRead_out (linkR7 s))
  obtain ⟨hrow, hname⟩ := rowOf_of_service hn
  refine ⟨hrow, fun h => hgetc (hname h), ?_⟩
  rintro g v rfl
  refine ⟨?_, ?_⟩
  · by_contra hv
    cases hn.symm.trans ((serviceOf_eq_none_iff v).mpr hv)
  · rintro rfl
    cases hn
    exact hgetc rfl

end

/-! PROOF. R21: RUN. -/

namespace Sys2Proof

open Sys2Proof.Laws.EncodedOpcode (opcode)
open Sys2Proof.Machine Sys2Proof.Spec

theorem opcode_decodeOperate {reg : Reg → Reg → BitVec 2 → Reg → Instr} {imm : Reg → Reg → BitVec 5 → Instr}
    {op : BitVec 4} (hreg : ∀ a b g c, opcode (reg a b g c) = op) (himm : ∀ a b i, opcode (imm a b i) = op) (w : Word) :
    opcode (decodeOperate w reg imm) = op := by
  unfold decodeOperate
  split
  · exact himm ..
  · exact hreg ..

theorem opcode_decodeJsr (w : Word) : opcode (decodeJsr w) = 0x4#4 := by
  unfold decodeJsr
  split <;> rfl

theorem opcode_decodeJmp (w : Word) : opcode (decodeJmp w) = 0xC#4 := by
  unfold decodeJmp
  split <;> rfl

theorem opcode_decodeTrap (w : Word) : opcode (decodeTrap w) = 0xF#4 := by
  unfold decodeTrap
  split <;> rfl

/-- R51: the opcode of a decoded instruction is the word's bits 15:12. -/
theorem opcode_decodeWord (w : Word) : opcode (decodeWord w) = bitField w 12 4 := by
  suffices h : (opcode (decodeWord w)).toNat = (bitField w 12 4).toNat from BitVec.eq_of_toNat_eq h
  have hlt : (bitField w 12 4).toNat < 16 := (bitField w 12 4).isLt
  unfold decodeWord
  split
  -- ADD, JSR, AND, JMP and TRAP have a decoder of their own
  case h_2 h => rw [opcode_decodeOperate (op := 0x1) (fun _ _ _ _ => rfl) (fun _ _ _ => rfl), h]; rfl
  case h_6 h => rw [opcode_decodeOperate (op := 0x5) (fun _ _ _ _ => rfl) (fun _ _ _ => rfl), h]; rfl
  case h_5 h => rw [opcode_decodeJsr, h]; rfl
  case h_13 h => rw [opcode_decodeJmp, h]; rfl
  case h_16 =>
    rw [opcode_decodeTrap]
    simp only [imp_false] at *
    change 15 = (bitField w 12 4).toNat
    omega
  all_goals simp_all [opcode]

theorem serviceCalled_decodeTrap (w : Word) : serviceCalled (decodeTrap w) = Params.spec.serviceOf (bitField w 0 8) := by
  unfold decodeTrap
  split <;> simp [serviceCalled, *]

theorem decodeWord_trap {w : Word} (h : bitField w 12 4 = 0xF) : decodeWord w = decodeTrap w := by
  simp [decodeWord, h]

theorem opcode_of_service {i : Instr} {n : ServiceName} (hn : serviceCalled i = some n) : opcode i = 0xF := by
  obtain ⟨g, rfl | rfl⟩ := serviceCalled_cases hn <;> cases n <;> rfl

/-- R51, R91: a word decoded to a call of a service has opcode 1111 and that service's vector. -/
theorem fields_of_service {w : Word} {n : ServiceName} (hn : serviceCalled (decodeWord w) = some n) :
    bitField w 12 4 = 0xF ∧ bitField w 0 8 = Params.spec.vectorOf n := by
  have hop : bitField w 12 4 = 0xF := (opcode_decodeWord w).symm.trans (opcode_of_service hn)
  rw [decodeWord_trap hop, serviceCalled_decodeTrap] at hn
  exact ⟨hop, Params.eq_vectorOf hn⟩

/-- R102, R103: what ends in a fault: a reserved opcode, and TRAP with a vector that names no service. -/
def Illegal (i : Instr) : Prop :=
  opcode i = 0x8 ∨ opcode i = 0xD ∨ (opcode i = 0xF ∧ serviceCalled i = none)

/-- R51, R91: the fields of a word decoded to an illegal instruction. -/
theorem fields_of_illegal {w : Word} (h : Illegal (decodeWord w)) :
    bitField w 12 4 = 0x8 ∨ bitField w 12 4 = 0xD ∨ (bitField w 12 4 = 0xF ∧ ¬isService (bitField w 0 8)) := by
  unfold Illegal at h
  rw [opcode_decodeWord] at h
  refine h.imp_right (Or.imp_right fun ⟨hop, hn⟩ => ⟨hop, ?_⟩)
  rw [decodeWord_trap hop, serviceCalled_decodeTrap] at hn
  exact (serviceOf_eq_none_iff _).mp hn

end Sys2Proof

namespace Sys2Proof.Machine

open Sys2Proof.Spec

variable {i : Instr} {s t : State}

/-- R21: an instruction leaves RUN as it is, unless it is HALT or illegal. -/
theorem Effect.run_cases (h : Effect s i t) :
    t.run = s.run ∨ (t.run = .halted ∧ serviceCalled i = some .halt) ∨ ((∃ r, t.run = .faulted r) ∧ Illegal i) := by
  cases h with
  | @service _ n hn =>
    rw [runService_run]
    split
    · next hhalt => exact .inr (.inl ⟨rfl, hhalt ▸ hn⟩)
    · exact .inl rfl
  | unknownVector hv => exact .inr (.inr ⟨⟨_, rfl⟩, .inr (.inr ⟨rfl, hv⟩)⟩)
  | reserved1000 => exact .inr (.inr ⟨⟨_, rfl⟩, .inl rfl⟩)
  | reserved1101 => exact .inr (.inr ⟨⟨_, rfl⟩, .inr (.inl rfl)⟩)
  | br => left; split <;> rfl
  | _ => left; simp

/-- R21: a step leaves RUN Running, unless it fetched HALT or an illegal instruction. -/
theorem step_run_cases (h : step s = .next t) :
    t.run = .running ∨
      s.svc = none ∧ ((t.run = .halted ∧ serviceCalled (decodeWord (fetchWord s)) = some .halt) ∨
        ((∃ r, t.run = .faulted r) ∧ Illegal (decodeWord (fetchWord s)))) := by
  obtain ⟨-, hrun, ⟨hsvc, h⟩ | ⟨v, -, rfl⟩⟩ := step_cases h
  · exact (exec_effect h).run_cases.imp (fun h => by simpa [hrun] using h) (fun h => ⟨hsvc, h⟩)
  · exact .inl ((resumeService_run v s).trans hrun)

end Sys2Proof.Machine

section
open Sys2Proof Sys2Proof.Machine Sys2Proof.Spec

/-- Settles O10: what a step can do to RUN, read back through the decoder. -/
theorem runStateChangesOnlyByHaltAndIllegalInstructions :
    Obligations.RunStateChangesOnlyByHaltAndIllegalInstructions := by
  have hrunning : ∀ s t, step s = .next t → s.run = .running := fun s t h =>
    have ⟨_, hrun, _⟩ := step_cases h
    hrun
  refine ⟨rfl, fun s t hstop h => ?_, hrunning, fun s t h hhalt => ?_, fun s t r h hfault => ?_⟩
  · rw [hrunning s t h] at hstop
    rcases hstop with hs | ⟨r, hs⟩ <;> cases hs
  · rcases step_run_cases h with hr | ⟨hsvc, ⟨-, hn⟩ | ⟨⟨_, hr⟩, -⟩⟩
    · cases hhalt.symm.trans hr
    · exact ⟨hsvc, fields_of_service hn⟩
    · cases hhalt.symm.trans hr
  · rcases step_run_cases h with hr | ⟨hsvc, ⟨hr, -⟩ | ⟨-, hill⟩⟩
    · cases hfault.symm.trans hr
    · cases hfault.symm.trans hr
    · exact ⟨hsvc, fields_of_illegal hill⟩

end

/-! PROOF. R28: the reset state. -/

section
open Sys2Proof Sys2Proof.Machine

/-- Settles O55, by the reset state's own fields. -/
theorem resetState : Obligations.ResetState :=
  ⟨reset_reg, rfl, rfl, rfl, fun _ => rfl, rfl, rfl, fun _ => rfl, rfl⟩

/-- Settles O58: memory is empty, nothing has faulted and no service is in progress. -/
theorem resetMeetsTheInvariant : Obligations.ResetMeetsTheInvariant :=
  ⟨rfl, nofun, fun h => absurd rfl h⟩

end

/-! PROOF. R35: what the keyboard poll leaves in each word, and that a word stored before it plays no part. -/

namespace Sys2Proof.Machine

section
variable {s t : State} {P : Params}

/-- Every word but two reads as before, said of one address at a time. -/
theorem sameMemBut_pair_iff {a b : Word} :
    SameMemBut [a, b] s t ↔ ∀ x, x ≠ a → x ≠ b → t.word x = s.word x := by
  simp [SameMemBut]

/-- R35, R99: a poll changes no register. -/
theorem keyboardPoll_sameRegs (s : State) : SameRegsBut [] s (keyboardPoll s P) := fun _ _ => by
  rw [keyboardPoll_frame]
  rfl

theorem keyboardPoll_pc (s : State) : (keyboardPoll s P).pc = s.pc := by rw [keyboardPoll_frame]

theorem keyboardPoll_cond (s : State) : (keyboardPoll s P).cond = s.cond := by rw [keyboardPoll_frame]

theorem keyboardPoll_sameLoop (s : State) : SameLoop s (keyboardPoll s P) := by
  rw [keyboardPoll_frame]
  exact ⟨rfl, rfl, rfl⟩

theorem keyboardPoll_sameMemBut (s : State) : SameMemBut [P.kbsrAddr, P.kbdrAddr] s (keyboardPoll s P) :=
  sameMemBut_pair_iff.mpr (keyboardPoll_word s)

/-- R34, R36: so a read, too, changes at most the two keyboard words. -/
theorem afterRead_sameMemBut (a : Word) (s : State) : SameMemBut [P.kbsrAddr, P.kbdrAddr] s (afterRead a s P) :=
  sameMemBut_pair_iff.mpr (afterRead_word s a)

@[simp] theorem hostPoll_word (s : State) (x : Word) : (hostPoll s).2.word x = s.word x := by
  rw [hostPoll_frame]
  rfl

@[simp] theorem hostReadReady_word (s : State) (x : Word) : (hostReadReady s).2.word x = s.word x := by
  rw [hostReadReady_frame]
  rfl

/-- R35: the data word a poll leaves: the character, or what stood there. -/
theorem keyboardPoll_kbdr (hP : P.kbsrAddr ≠ P.kbdrAddr) (s : State) :
    (keyboardPoll s P).word P.kbdrAddr =
      if (hostPoll s).1 then zext16 (hostReadReady (hostPoll s).2).1 else s.word P.kbdrAddr := by
  cases h : (hostPoll s).1 with
  | false => simp [keyboardPoll_false s h, hP.symm]
  | true => simp [keyboardPoll_true s h]

/-- R24, R25: a poll asks the host once, and a second time for the pending character. -/
theorem keyboardPoll_host (s : State) :
    (keyboardPoll s P).host =
      if (hostPoll s).1 then (hostReadReady (hostPoll s).2).2.host else (hostPoll s).2.host := by
  cases h : (hostPoll s).1 with
  | false => simp [keyboardPoll_false s h]
  | true => simp [keyboardPoll_true s h]

/-- R5: zero-extension keeps the number. -/
theorem zext16_toNat (b : Byte) : (zext16 b).toNat = b.toNat := BitVec.toNat_setWidth_of_le (by decide)

/-- R24: what the host answers to a poll does not depend on memory. -/
@[simp] theorem hostPoll_memWrite (a v : Word) (s : State) :
    hostPoll (memWrite a v s) = ((hostPoll s).1, memWrite a v (hostPoll s).2) := by
  unfold hostPoll
  rw [memWrite_host]
  split <;> rfl

@[simp] theorem hostReadReady_memWrite (a v : Word) (s : State) :
    hostReadReady (memWrite a v s) = ((hostReadReady s).1, memWrite a v (hostReadReady s).2) := by
  unfold hostReadReady
  rw [memWrite_host]
  split <;> rfl

/-- R35, R37: a poll overwrites the whole status word, so a store there before it leaves no trace. -/
theorem keyboardPoll_memWrite_kbsr (v : Word) (s : State) :
    SameMem (keyboardPoll s P) (keyboardPoll (memWrite P.kbsrAddr v s) P) := by
  intro x
  have hpoll : (hostPoll (memWrite P.kbsrAddr v s)).1 = (hostPoll s).1 := by simp
  cases h : (hostPoll s).1 with
  | false =>
    rw [keyboardPoll_false _ h, keyboardPoll_false _ (hpoll.trans h)]
    by_cases hx : x = P.kbsrAddr <;> simp [hx]
  | true =>
    rw [keyboardPoll_true _ h, keyboardPoll_true _ (hpoll.trans h)]
    by_cases hx : x = P.kbsrAddr <;> simp [hx]

end

end Sys2Proof.Machine

section
open Sys2Proof Sys2Proof.Machine

/-- Settles O32, by whether the address is that of KBSR. -/
theorem readsInterceptOnlyKbsr : Obligations.ReadsInterceptOnlyKbsr :=
  ⟨fun _ a s h => memRead_plain s a h,
   fun _ s => by rw [memRead, afterRead_kbsr],
   fun _ s h => memRead_plain s _ h.symm⟩

/-- Settles O33: the poll's frame, then the status word, the data word and the host's side by the host's answer. -/
theorem keyboardPollLatchesOrClears : Obligations.KeyboardPollLatchesOrClears := by
  refine ⟨rfl, rfl, rfl, fun P s hP => ?_⟩
  have hne : P.kbsrAddr ≠ P.kbdrAddr := Params.kbsr_ne_kbdr hP
  refine ⟨keyboardPoll_sameRegs s, keyboardPoll_pc s, keyboardPoll_cond s, keyboardPoll_sameLoop s,
    keyboardPoll_sameMemBut s, fun h => ?_, fun h => ?_⟩
  · simp [keyboardPoll_kbsr s hne, keyboardPoll_kbdr hne, keyboardPoll_host, zext16_toNat, h]
  · simp [keyboardPoll_kbsr s hne, keyboardPoll_kbdr hne, keyboardPoll_host, h]

/-- Settles O35: read after write, and that the poll of the next read of KBSR overwrites the word stored there. -/
theorem writesStoreUnconditionally : Obligations.WritesStoreUnconditionally := by
  intro P s a v
  have hmem := keyboardPoll_memWrite_kbsr v s (P := P)
  refine ⟨by simp, fun x hx => ?_, rfl, ?_, ?_⟩
  · have hne : x ≠ a := by simpa using hx
    simp [hne]
  · simp only [memRead_fst, afterRead_kbsr]
    exact hmem _
  · simpa only [memRead_snd, afterRead_kbsr] using hmem

end

/-! PROOF. R35, R36, R99: who writes ordinary memory. -/

section
open Sys2Proof Sys2Proof.Machine

/-- Settles O19: a load changes memory by its reads alone, a service by the reads of its strings, the others not at all. -/
theorem onlyStoresWriteOrdinaryMemory : Obligations.OnlyStoresWriteOrdinaryMemory := by
  intro i s t h hst hstr
  cases exec_effect h with
  | st => exact absurd rfl (hst _ _).1
  | sti => exact absurd rfl (hst _ _).2
  | str => exact absurd rfl (hstr _ _ _)
  | ld | ldr => exact afterRead_sameMemBut _ s (P := Params.spec)
  | ldi =>
    intro x hx
    calc (afterRead _ (afterRead _ s)).word x
      _ = (afterRead _ s).word x := afterRead_sameMemBut _ _ (P := Params.spec) x hx
      _ = s.word x := afterRead_sameMemBut _ s (P := Params.spec) x hx
  | @service _ n =>
    exact sameMemBut_pair_iff.mpr (runService_frame (P := Params.spec) n (linkR7 s)).word
  | br => intro x _; split <;> rfl
  | _ => exact fun _ _ => rfl

end

/-! PROOF. R38, R129: a fetch at KBSR. -/

namespace Sys2Proof.Machine

variable {s : State}

@[simp] theorem afterFetch_reg (r : Reg) : (afterFetch s).reg r = s.reg r := by simp [afterFetch]

/-- R36: a fetch, too, changes at most the two keyboard words. -/
theorem afterFetch_sameMemBut (s : State) : SameMemBut [0xFE00, 0xFE02] s (afterFetch s) :=
  afterRead_sameMemBut s.pc s (P := Params.spec)

/-- R38: what a fetch at KBSR leaves in memory is what the poll leaves. -/
theorem afterFetch_word_of_kbsr (hpc : s.pc = Params.spec.kbsrAddr) (x : Word) :
    (afterFetch s).word x = (keyboardPoll s).word x := by
  rw [afterFetch, memRead_snd, hpc, afterRead_kbsr, setPc_word]

theorem fetchWord_of_kbsr (hpc : s.pc = Params.spec.kbsrAddr) :
    fetchWord s = if (hostPoll s).1 then 0x8000 else 0x0000 := by
  rw [fetchWord, memRead_fst, hpc, afterRead_kbsr, keyboardPoll_kbsr s (by decide)]
  rfl

/-- R63: a BR that selects no flag changes nothing. -/
theorem exec_br_noFlag (off9 : BitVec 9) (s : State) : exec (.br 0b000 off9) s = .next s := by
  have hmask : ¬maskSelects 0b000 s.cond = true := by simp [maskSelects_iff]
  exact congrArg Host.Outcome.next (if_neg hmask)

/-- R102: opcode 0b1000 faults, with the fetched word on record. -/
theorem exec_reserved1000 (g : BitVec 12) (s : State) : exec (.reserved1000 g) s =
    .next (raiseFault .reservedOpcode (encode (.reserved1000 g)) none s) := rfl

/-- R129: the status word is a BR that selects no flag, or the reserved opcode 0b1000. -/
theorem step_of_kbsr (hready : Ready s) (hpc : s.pc = Params.spec.kbsrAddr) :
    step s = .next
      (if (hostPoll s).1 then raiseFault .reservedOpcode 0x8000 none (afterFetch s) else afterFetch s) := by
  rw [step_ready hready, fetchWord_of_kbsr hpc]
  cases (hostPoll s).1 with
  | false =>
    have hdecode : decodeWord 0x0000 = .br 0b000 0 := by decide
    simp only [Bool.false_eq_true, if_false, hdecode]
    exact exec_br_noFlag 0 _
  | true =>
    have hdecode : decodeWord 0x8000 = .reserved1000 0 := by decide
    simp only [if_true, hdecode]
    exact exec_reserved1000 0 _

end Sys2Proof.Machine

section
open Sys2Proof Sys2Proof.Machine

/-- Settles O9: the two answers of the poll give the status word, and so the instruction that runs. -/
theorem fetchAtKbsrRunsTheFreshStatus : Obligations.FetchAtKbsrRunsTheFreshStatus := by
  intro s hready hpc
  have hstep := step_of_kbsr hready hpc
  have hkbsr : (afterFetch s).word 0xFE00 = if (hostPoll s).1 then 0x8000 else 0x0000 :=
    (afterFetch_word_of_kbsr hpc _).trans (keyboardPoll_kbsr s (P := Params.spec) (by decide))
  have hkbdr : (afterFetch s).word 0xFE02 =
      if (hostPoll s).1 then zext16 (hostReadReady (hostPoll s).2).1 else s.word 0xFE02 :=
    (afterFetch_word_of_kbsr hpc _).trans (keyboardPoll_kbdr (P := Params.spec) (by decide) s)
  have hmem := afterFetch_sameMemBut s
  obtain ⟨hrun, -, -⟩ := hready
  cases hpoll : (hostPoll s).1 with
  | false =>
    simp only [hpoll, Bool.false_eq_true, if_false] at hstep hkbsr hkbdr
    exact ⟨afterFetch s, hstep, by simp [hpc], fun r _ => by simp, by simp, by simp, hmem,
      fun _ => ⟨by simp [hrun], hkbsr, hkbdr⟩, nofun⟩
  | true =>
    simp only [hpoll, if_true] at hstep hkbsr hkbdr
    exact ⟨_, hstep, by simp [hpc], fun r _ => by simp, by simp, by simp, hmem, nofun,
      fun _ => ⟨by simp [hpc], hkbsr, (congrArg BitVec.toNat hkbdr).trans (zext16_toNat _)⟩⟩

end

/-! PROOF. R28, R31: the canonical form of memory is unique. -/

namespace Sys2Proof.Machine

variable {m n : Memory} {a k : Nat} {v : Word}

/-- An address that no cell lists reads as unlisted. -/
theorem Memory.read_of_not_listed (h : ∀ c ∈ m, c.1 ≠ a) : m.read a = Memory.unlisted := by
  induction m with
  | nil => rfl
  | cons c m ih =>
    rw [Memory.read_cons, if_neg (h c List.mem_cons_self)]
    exact ih fun d hd => h d (List.mem_cons_of_mem _ hd)

/-- The lower bound of a rising memory lies below every cell. -/
theorem Memory.lt_of_mem_rising {c : Nat × Word} (h : Memory.rising (some k) m = true) (hc : c ∈ m) : k < c.1 := by
  induction m generalizing k with
  | nil => cases hc
  | cons d m ih =>
    obtain ⟨hd, hm⟩ : k < d.1 ∧ Memory.rising (some d.1) m = true := by simpa [Memory.rising] using h
    rcases List.mem_cons.mp hc with rfl | hc
    · exact hd
    · exact hd.trans (ih hm hc)

/-- Up to the lower bound of a rising memory every address reads as unlisted. -/
theorem Memory.read_of_le_rising (h : Memory.rising (some k) m = true) (ha : a ≤ k) : m.read a = Memory.unlisted :=
  Memory.read_of_not_listed fun _ hc => (ha.trans_lt (Memory.lt_of_mem_rising h hc)).ne'

/-- A canonical memory's first cell lists a word that is not the unlisted one, and the rest is canonical above it. -/
theorem Memory.wf_cons (h : Memory.wf ((k, v) :: m) = true) :
    v ≠ Memory.unlisted ∧ Memory.rising (some k) m = true ∧ m.wf = true := by
  obtain ⟨hrising, hcells⟩ := (Memory.wf_iff _).mp h
  have htail : Memory.rising (some k) m = true := by simpa [Memory.rising] using hrising
  exact ⟨(hcells _ List.mem_cons_self).2, htail,
    (Memory.wf_iff m).mpr ⟨Memory.rising_none htail, fun c hc => hcells c (List.mem_cons_of_mem _ hc)⟩⟩

/-- An address that does not read as unlisted lies no lower than a canonical memory's first cell. -/
theorem Memory.head_le_of_read_ne (h : Memory.wf ((k, v) :: m) = true)
    (ha : Memory.read ((k, v) :: m) a ≠ Memory.unlisted) : k ≤ a := by
  by_contra hlt
  obtain ⟨-, hrising, -⟩ := Memory.wf_cons h
  exact ha (by rw [Memory.read_cons, if_neg (by omega), Memory.read_of_le_rising hrising (by omega)])

/-- R31: outside the 65536 addresses a canonical memory reads as unlisted. -/
theorem Memory.read_of_memoryWords_le (h : m.wf = true) (ha : Params.memoryWords ≤ a) : m.read a = Memory.unlisted := by
  obtain ⟨-, hcells⟩ := (Memory.wf_iff m).mp h
  refine Memory.read_of_not_listed fun c hc => ?_
  have ⟨hlt, _⟩ := hcells c hc
  omega

/-- Memories in canonical form that read alike have the same first cell, and rests that read alike. -/
theorem Memory.eq_of_read_eq (hm : m.wf = true) (hn : n.wf = true) (h : ∀ a, m.read a = n.read a) : m = n := by
  induction m generalizing n with
  | nil =>
    cases n with
    | nil => rfl
    | cons d n =>
      obtain ⟨hd, -, -⟩ := Memory.wf_cons hn
      exact absurd (h d.1).symm (by rwa [Memory.read_cons, if_pos rfl])
  | cons c m ih =>
    obtain ⟨k, v⟩ := c
    obtain ⟨hv, hrm, hm'⟩ := Memory.wf_cons hm
    cases n with
    | nil => exact absurd (h k) (by simpa using hv)
    | cons d n =>
      obtain ⟨j, w⟩ := d
      obtain ⟨hw, hrn, hn'⟩ := Memory.wf_cons hn
      have hjk : j ≤ k := Memory.head_le_of_read_ne hn (by rw [← h]; simpa using hv)
      have hkj : k ≤ j := Memory.head_le_of_read_ne hm (by rw [h]; simpa using hw)
      obtain rfl : k = j := le_antisymm hkj hjk
      obtain rfl : v = w := by simpa using h k
      have htails : ∀ a, Memory.read m a = Memory.read n a := fun a => by
        by_cases ha : k = a
        · subst ha
          rw [Memory.read_of_le_rising hrm le_rfl, Memory.read_of_le_rising hrn le_rfl]
        · simpa [ha] using h a
      rw [ih hm' hn' htails]

end Sys2Proof.Machine

section
open Sys2Proof Sys2Proof.Machine

/-- Settles O36: beyond the 65536 words both read as unlisted, so they read alike at every number. -/
theorem canonicalMemoriesAreDeterminedByTheirWords : Obligations.CanonicalMemoriesAreDeterminedByTheirWords := by
  intro m n hm hn h
  refine Memory.eq_of_read_eq hm hn fun a => ?_
  by_cases ha : a < Params.memoryWords
  · have hword := h (BitVec.ofNat 16 a)
    rwa [BitVec.toNat_ofNat, show a % 2 ^ 16 = a from Nat.mod_eq_of_lt ha] at hword
  · rw [Memory.read_of_memoryWords_le hm (not_lt.mp ha), Memory.read_of_memoryWords_le hn (not_lt.mp ha)]

end

/-! PROOF. The decoder: what a decoded instruction says of its word, field by field (R51, R53). -/

namespace Sys2Proof

open Sys2Proof.Machine

variable {P : Params} {w : Word}

theorem decodeTrap_of_none (h : P.serviceOf (bitField w 0 8) = none) :
    decodeTrap w P = .trap (bitField w 8 4) (bitField w 0 8) := by simp [decodeTrap, h]

theorem decodeTrap_of_some {n : ServiceName} (h : P.serviceOf (bitField w 0 8) = some n) :
    decodeTrap w P = serviceRow (bitField w 8 4) n := by cases n <;> simp [decodeTrap, h, serviceRow]

/-- `Reading P w i`: the word `w` has the opcode and the fixed bits of the row of `i`, and its fields where R53 places
them are the operands and ignored bits of `i`. The six service rows are one case. -/
inductive Reading (P : Params) (w : Word) : Instr → Prop
  | br (hop : bitField w 12 4 = 0x0) : Reading P w (.br (bitField w 9 3) (bitField w 0 9))
  | addReg (hop : bitField w 12 4 = 0x1) (h5 : bitField w 5 1 = 0) :
    Reading P w (.addReg (regField w 9) (regField w 6) (bitField w 3 2) (regField w 0))
  | addImm (hop : bitField w 12 4 = 0x1) (h5 : bitField w 5 1 = 1) :
    Reading P w (.addImm (regField w 9) (regField w 6) (bitField w 0 5))
  | ld (hop : bitField w 12 4 = 0x2) : Reading P w (.ld (regField w 9) (bitField w 0 9))
  | st (hop : bitField w 12 4 = 0x3) : Reading P w (.st (regField w 9) (bitField w 0 9))
  | jsr (hop : bitField w 12 4 = 0x4) (h11 : bitField w 11 1 = 1) : Reading P w (.jsr (bitField w 0 11))
  | jsrr (hop : bitField w 12 4 = 0x4) (h11 : bitField w 11 1 = 0) :
    Reading P w (.jsrr (bitField w 9 2) (regField w 6) (bitField w 0 6))
  | andReg (hop : bitField w 12 4 = 0x5) (h5 : bitField w 5 1 = 0) :
    Reading P w (.andReg (regField w 9) (regField w 6) (bitField w 3 2) (regField w 0))
  | andImm (hop : bitField w 12 4 = 0x5) (h5 : bitField w 5 1 = 1) :
    Reading P w (.andImm (regField w 9) (regField w 6) (bitField w 0 5))
  | ldr (hop : bitField w 12 4 = 0x6) : Reading P w (.ldr (regField w 9) (regField w 6) (bitField w 0 6))
  | str (hop : bitField w 12 4 = 0x7) : Reading P w (.str (regField w 9) (regField w 6) (bitField w 0 6))
  | reserved1000 (hop : bitField w 12 4 = 0x8) : Reading P w (.reserved1000 (bitField w 0 12))
  | not (hop : bitField w 12 4 = 0x9) : Reading P w (.not (regField w 9) (regField w 6) (bitField w 0 6))
  | ldi (hop : bitField w 12 4 = 0xA) : Reading P w (.ldi (regField w 9) (bitField w 0 9))
  | sti (hop : bitField w 12 4 = 0xB) : Reading P w (.sti (regField w 9) (bitField w 0 9))
  | jmp (hop : bitField w 12 4 = 0xC) (hbase : regField w 6 ≠ .r7) :
    Reading P w (.jmp (bitField w 9 3) (regField w 6) (bitField w 0 6))
  | ret (hop : bitField w 12 4 = 0xC) (hbase : regField w 6 = .r7) :
    Reading P w (.ret (bitField w 9 3) (bitField w 0 6))
  | reserved1101 (hop : bitField w 12 4 = 0xD) : Reading P w (.reserved1101 (bitField w 0 12))
  | lea (hop : bitField w 12 4 = 0xE) : Reading P w (.lea (regField w 9) (bitField w 0 9))
  | trap (hop : bitField w 12 4 = 0xF) (hvect : P.serviceOf (bitField w 0 8) = none) :
    Reading P w (.trap (bitField w 8 4) (bitField w 0 8))
  | service {n : ServiceName} (hop : bitField w 12 4 = 0xF) (hvect : P.serviceOf (bitField w 0 8) = some n) :
    Reading P w (serviceRow (bitField w 8 4) n)

theorem reading_decodeOperate {reg : Reg → Reg → BitVec 2 → Reg → Instr} {imm : Reg → Reg → BitVec 5 → Instr}
    (hreg : bitField w 5 1 = 0 → Reading P w (reg (regField w 9) (regField w 6) (bitField w 3 2) (regField w 0)))
    (himm : bitField w 5 1 = 1 → Reading P w (imm (regField w 9) (regField w 6) (bitField w 0 5))) :
    Reading P w (decodeOperate w reg imm) := by
  unfold decodeOperate
  split
  · next h5 => exact himm h5
  · next h5 => exact hreg ((BitVec.eq_zero_or_eq_one _).resolve_right h5)

theorem reading_decodeJsr (hop : bitField w 12 4 = 0x4) : Reading P w (decodeJsr w) := by
  unfold decodeJsr
  split
  · next h11 => exact .jsr hop h11
  · next h11 => exact .jsrr hop ((BitVec.eq_zero_or_eq_one _).resolve_right h11)

theorem reading_decodeJmp (hop : bitField w 12 4 = 0xC) : Reading P w (decodeJmp w) := by
  unfold decodeJmp
  split
  · next hbase => exact .ret hop hbase
  · next hbase => exact .jmp hop hbase

theorem reading_decodeTrap (hop : bitField w 12 4 = 0xF) : Reading P w (decodeTrap w P) := by
  cases hvect : P.serviceOf (bitField w 0 8) with
  | none => exact decodeTrap_of_none hvect ▸ .trap hop hvect
  | some n => exact decodeTrap_of_some hvect ▸ .service hop hvect

/-- R51, R53, R66: all that the decoder can answer. -/
theorem reading_decodeWord (P : Params) (w : Word) : Reading P w (decodeWord w P) := by
  have hlt : (bitField w 12 4).toNat < 16 := (bitField w 12 4).isLt
  unfold decodeWord
  split
  case h_1 h => exact .br (BitVec.eq_of_toNat_eq h)
  case h_2 h => exact reading_decodeOperate (.addReg (BitVec.eq_of_toNat_eq h)) (.addImm (BitVec.eq_of_toNat_eq h))
  case h_3 h => exact .ld (BitVec.eq_of_toNat_eq h)
  case h_4 h => exact .st (BitVec.eq_of_toNat_eq h)
  case h_5 h => exact reading_decodeJsr (BitVec.eq_of_toNat_eq h)
  case h_6 h => exact reading_decodeOperate (.andReg (BitVec.eq_of_toNat_eq h)) (.andImm (BitVec.eq_of_toNat_eq h))
  case h_7 h => exact .ldr (BitVec.eq_of_toNat_eq h)
  case h_8 h => exact .str (BitVec.eq_of_toNat_eq h)
  case h_9 h => exact .reserved1000 (BitVec.eq_of_toNat_eq h)
  case h_10 h => exact .not (BitVec.eq_of_toNat_eq h)
  case h_11 h => exact .ldi (BitVec.eq_of_toNat_eq h)
  case h_12 h => exact .sti (BitVec.eq_of_toNat_eq h)
  case h_13 h => exact reading_decodeJmp (BitVec.eq_of_toNat_eq h)
  case h_14 h => exact .reserved1101 (BitVec.eq_of_toNat_eq h)
  case h_15 h => exact .lea (BitVec.eq_of_toNat_eq h)
  case h_16 =>
    refine reading_decodeTrap (BitVec.eq_of_toNat_eq ?_)
    simp only [imp_false] at *
    change (bitField w 12 4).toNat = 15
    omega

end Sys2Proof

/-! PROOF. R66: the encoder and the decoder are inverse to each other. -/

namespace Sys2Proof

open Sys2Proof.Laws.EncodedOpcode
open Sys2Proof.Machine

variable {P : Params} {i : Instr}

/-- Two fields side by side are one field. -/
theorem bitField_append {w : Word} {hi lo m n : Nat} (h : hi = lo + m) :
    bitField w hi n ++ bitField w lo m = bitField w lo (n + m) :=
  BitVec.extractLsb'_append_extractLsb'_eq_extractLsb' h

theorem bitField_whole (w : Word) : bitField w 0 16 = w := BitVec.extractLsb'_eq_self

@[simp] theorem bitsOfReg_regField (w : Word) (lo : Nat) : bitsOfReg (regField w lo) = bitField w lo 3 :=
  bitsOfReg_regOfBits _

section
variable {w : Word} {op : BitVec 4} (hop : bitField w 12 4 = op)
include hop

theorem wordOpr_fields (h5 : bitField w 5 1 = 0) :
    wordOpr op (regField w 9) (regField w 6) (bitField w 3 2) (regField w 0) = w := by
  rw [wordOpr, ← hop, show 0#1 = bitField w 5 1 from h5.symm]
  simpa (disch := decide) only [bitsOfReg_regField, bitField_append] using bitField_whole w

theorem wordOpi_fields (h5 : bitField w 5 1 = 1) :
    wordOpi op (regField w 9) (regField w 6) (bitField w 0 5) = w := by
  rw [wordOpi, ← hop, show 1#1 = bitField w 5 1 from h5.symm]
  simpa (disch := decide) only [bitsOfReg_regField, bitField_append] using bitField_whole w

theorem wordPcrel_fields : wordPcrel op (regField w 9) (bitField w 0 9) = w := by
  rw [wordPcrel, ← hop]
  simpa (disch := decide) only [bitsOfReg_regField, bitField_append] using bitField_whole w

theorem wordBase_fields : wordBase op (regField w 9) (regField w 6) (bitField w 0 6) = w := by
  rw [wordBase, ← hop]
  simpa (disch := decide) only [bitsOfReg_regField, bitField_append] using bitField_whole w

end

theorem wordJmp_fields {w : Word} (hop : bitField w 12 4 = 0xC) :
    wordJmp (bitField w 9 3) (regField w 6) (bitField w 0 6) = w := by
  rw [wordJmp, show 0xC#4 = bitField w 12 4 from hop.symm]
  simpa (disch := decide) only [bitsOfReg_regField, bitField_append] using bitField_whole w

theorem wordTrap_fields {w : Word} (hop : bitField w 12 4 = 0xF) : wordTrap (bitField w 8 4) (bitField w 0 8) = w := by
  rw [wordTrap, show 0xF#4 = bitField w 12 4 from hop.symm]
  simpa (disch := decide) only [bitField_append] using bitField_whole w

@[simp] theorem encode_serviceRow (g : BitVec 4) (n : ServiceName) :
    encode (serviceRow g n) P = wordTrap g (P.vectorOf n) := by
  cases n <;> rfl

@[simp] theorem wellFormed_serviceRow (g : BitVec 4) (n : ServiceName) : WellFormed (serviceRow g n) P = true := by
  cases n <;> rfl

/-- R53: a word is put together again from the fields read from it. -/
theorem Reading.encode_eq {w : Word} (h : Reading P w i) : encode i P = w := by
  cases h with
  | addReg hop h5 | andReg hop h5 => exact wordOpr_fields hop h5
  | addImm hop h5 | andImm hop h5 => exact wordOpi_fields hop h5
  | ld hop | ldi hop | lea hop | st hop | sti hop => exact wordPcrel_fields hop
  | ldr hop | str hop | not hop => exact wordBase_fields hop
  | jmp hop => exact wordJmp_fields hop
  | ret hop hbase => rw [encode, ← hbase, wordJmp_fields hop]
  | trap hop => exact wordTrap_fields hop
  | service hop hvect => rw [encode_serviceRow, ← Params.eq_vectorOf hvect, wordTrap_fields hop]
  | br hop =>
    rw [encode, show 0x0#4 = bitField w 12 4 from hop.symm]
    simpa (disch := decide) only [bitField_append] using bitField_whole w
  | jsr hop h11 =>
    rw [encode, show 0x4#4 = bitField w 12 4 from hop.symm, show 1#1 = bitField w 11 1 from h11.symm]
    simpa (disch := decide) only [bitField_append] using bitField_whole w
  | jsrr hop h11 =>
    rw [encode, show 0x4#4 = bitField w 12 4 from hop.symm, show 0#1 = bitField w 11 1 from h11.symm]
    simpa (disch := decide) only [bitsOfReg_regField, bitField_append] using bitField_whole w
  | reserved1000 hop =>
    rw [encode, show 0x8#4 = bitField w 12 4 from hop.symm]
    simpa (disch := decide) only [bitField_append] using bitField_whole w
  | reserved1101 hop =>
    rw [encode, show 0xD#4 = bitField w 12 4 from hop.symm]
    simpa (disch := decide) only [bitField_append] using bitField_whole w

/-- R68: the decoder reads the more specific spelling of a word. -/
theorem Reading.wellFormed {w : Word} (h : Reading P w i) : WellFormed i P = true := by
  cases h with
  | jmp _ hbase => simpa [WellFormed] using hbase
  | trap _ hvect => simp [WellFormed, hvect]
  | service => exact wellFormed_serviceRow ..
  | _ => rfl

end Sys2Proof

section
open Sys2Proof Sys2Proof.Machine

/-- Settles O3: the decoder's answer is a reading of the word. -/
theorem encodeOfDecodeIsTheWord : Obligations.EncodeOfDecodeIsTheWord := by
  have hany : ∀ P (w : Word), encode (decodeWord w P) P = w ∧ WellFormed (decodeWord w P) P = true := fun P w =>
    ⟨(reading_decodeWord P w).encode_eq, (reading_decodeWord P w).wellFormed⟩
  exact ⟨hany Params.spec, hany⟩

end

/-! PROOF. R66: the decoder reads each operand back from the word the encoder writes (R53). -/

namespace Sys2Proof

open Sys2Proof.Laws
open Sys2Proof.Laws.EncodedOpcode
  (wordOpr_opcode wordOpi_opcode wordPcrel_opcode wordBase_opcode wordJmp_opcode wordTrap_opcode)
open Sys2Proof.Machine

variable {P : Params} {i : Instr}

section
variable (op : BitVec 4) (a b c : Reg)

@[simp] theorem decodeOperate_wordOpr (g : BitVec 2) (reg : Reg → Reg → BitVec 2 → Reg → Instr)
    (imm : Reg → Reg → BitVec 5 → Instr) : decodeOperate (wordOpr op a b g c) reg imm = reg a b g c := by
  unfold decodeOperate regField bitField wordOpr
  simp (disch := decide) only [field_low, field_high, Nat.reduceSub, BitVec.extractLsb'_eq_self, regOfBits_bitsOfReg,
    reduceIte, BitVec.reduceEq]

@[simp] theorem decodeOperate_wordOpi (imm5 : BitVec 5) (reg : Reg → Reg → BitVec 2 → Reg → Instr)
    (imm : Reg → Reg → BitVec 5 → Instr) : decodeOperate (wordOpi op a b imm5) reg imm = imm a b imm5 := by
  unfold decodeOperate regField bitField wordOpi
  simp (disch := decide) only [field_low, field_high, Nat.reduceSub, BitVec.extractLsb'_eq_self, regOfBits_bitsOfReg,
    reduceIte, BitVec.reduceEq]

@[simp] theorem regField_wordPcrel (off9 : BitVec 9) : regField (wordPcrel op a off9) 9 = a := by
  unfold regField bitField wordPcrel
  simp (disch := decide) only [field_low, field_high, Nat.reduceSub, BitVec.extractLsb'_eq_self, regOfBits_bitsOfReg]

@[simp] theorem bitField_wordPcrel (off9 : BitVec 9) : bitField (wordPcrel op a off9) 0 9 = off9 := by
  unfold bitField wordPcrel
  simp (disch := decide) only [field_low, BitVec.extractLsb'_eq_self]

@[simp] theorem regField_wordBase_hi (off6 : BitVec 6) : regField (wordBase op a b off6) 9 = a := by
  unfold regField bitField wordBase
  simp (disch := decide) only [field_low, field_high, Nat.reduceSub, BitVec.extractLsb'_eq_self, regOfBits_bitsOfReg]

@[simp] theorem regField_wordBase_mid (off6 : BitVec 6) : regField (wordBase op a b off6) 6 = b := by
  unfold regField bitField wordBase
  simp (disch := decide) only [field_low, field_high, Nat.reduceSub, BitVec.extractLsb'_eq_self, regOfBits_bitsOfReg]

@[simp] theorem bitField_wordBase (off6 : BitVec 6) : bitField (wordBase op a b off6) 0 6 = off6 := by
  unfold bitField wordBase
  simp (disch := decide) only [field_low, BitVec.extractLsb'_eq_self]

end

@[simp] theorem decodeJmp_wordJmp (hi : BitVec 3) (base : Reg) (lo : BitVec 6) :
    decodeJmp (wordJmp hi base lo) = if base = .r7 then .ret hi lo else .jmp hi base lo := by
  unfold decodeJmp regField bitField wordJmp
  simp (disch := decide) only [field_low, field_high, Nat.reduceSub, BitVec.extractLsb'_eq_self, regOfBits_bitsOfReg]

@[simp] theorem bitField_wordTrap_hi (g : BitVec 4) (v : BitVec 8) : bitField (wordTrap g v) 8 4 = g := by
  unfold bitField wordTrap
  simp (disch := decide) only [field_low, field_high, Nat.reduceSub, BitVec.extractLsb'_eq_self]

@[simp] theorem bitField_wordTrap_lo (g : BitVec 4) (v : BitVec 8) : bitField (wordTrap g v) 0 8 = v := by
  unfold bitField wordTrap
  simp (disch := decide) only [field_low, BitVec.extractLsb'_eq_self]

theorem decodeJsr_jsr (off11 : BitVec 11) : decodeJsr (0x4#4 ++ 1#1 ++ off11) = .jsr off11 := by
  unfold decodeJsr bitField
  simp (disch := decide) only [field_low, field_high, Nat.reduceSub, BitVec.extractLsb'_eq_self, reduceIte,
    BitVec.reduceEq]

theorem decodeJsr_jsrr (hi : BitVec 2) (base : Reg) (lo : BitVec 6) :
    decodeJsr (0x4#4 ++ 0#1 ++ hi ++ bitsOfReg base ++ lo) = .jsrr hi base lo := by
  unfold decodeJsr regField bitField
  simp (disch := decide) only [field_low, field_high, Nat.reduceSub, BitVec.extractLsb'_eq_self, regOfBits_bitsOfReg,
    reduceIte, BitVec.reduceEq]

theorem bitField_br_hi (nzp : BitVec 3) (off9 : BitVec 9) : bitField (0x0#4 ++ nzp ++ off9) 9 3 = nzp := by
  unfold bitField
  simp (disch := decide) only [field_low, field_high, Nat.reduceSub, BitVec.extractLsb'_eq_self]

theorem bitField_br_lo (nzp : BitVec 3) (off9 : BitVec 9) : bitField (0x0#4 ++ nzp ++ off9) 0 9 = off9 := by
  unfold bitField
  simp (disch := decide) only [field_low, BitVec.extractLsb'_eq_self]

theorem bitField_reserved (op : BitVec 4) (g : BitVec 12) : bitField (op ++ g) 0 12 = g := by
  unfold bitField
  simp (disch := decide) only [field_low, BitVec.extractLsb'_eq_self]

section
variable {w : Word}

theorem decodeWord_br (hop : bitField w 12 4 = 0x0) : decodeWord w P = .br (bitField w 9 3) (bitField w 0 9) := by
  simp [decodeWord, hop]

theorem decodeWord_jsr (hop : bitField w 12 4 = 0x4) : decodeWord w P = decodeJsr w := by simp [decodeWord, hop]

theorem decodeWord_reserved1000 (hop : bitField w 12 4 = 0x8) : decodeWord w P = .reserved1000 (bitField w 0 12) := by
  simp [decodeWord, hop]

theorem decodeWord_reserved1101 (hop : bitField w 12 4 = 0xD) : decodeWord w P = .reserved1101 (bitField w 0 12) := by
  simp [decodeWord, hop]

end

/-- R91: the word of a service's vector is read as that service. -/
theorem decodeWord_wordTrap_vectorOf (hP : P.wf = true) (g : BitVec 4) (n : ServiceName) :
    decodeWord (wordTrap g (P.vectorOf n)) P = serviceRow g n := by
  have hn := Params.serviceOf_vectorOf hP n
  simp [decodeWord, wordTrap_opcode, decodeTrap_of_some (w := wordTrap g (P.vectorOf n)) (n := n), hn]

/-- R53, R66: the decoder reads an instruction back from its word. -/
theorem decodeWord_encode (hP : P.wf = true) (hi : WellFormed i P = true) : decodeWord (encode i P) P = i := by
  cases i with
  | addReg | andReg => simp [encode, decodeWord, wordOpr_opcode]
  | addImm | andImm => simp [encode, decodeWord, wordOpi_opcode]
  | ld | ldi | lea | st | sti => simp [encode, decodeWord, wordPcrel_opcode]
  | ldr | str | not => simp [encode, decodeWord, wordBase_opcode]
  | jmp hi base lo =>
    have hbase : base ≠ .r7 := by simpa [WellFormed] using hi
    simp [encode, decodeWord, wordJmp_opcode, hbase]
  | ret => simp [encode, decodeWord, wordJmp_opcode]
  | trap g v =>
    have hv : P.serviceOf v = none := by simpa [WellFormed] using hi
    simp [encode, decodeWord, wordTrap_opcode, decodeTrap_of_none, hv]
  | getc g => exact decodeWord_wordTrap_vectorOf hP g .getc
  | out g => exact decodeWord_wordTrap_vectorOf hP g .out
  | puts g => exact decodeWord_wordTrap_vectorOf hP g .puts
  | inChar g => exact decodeWord_wordTrap_vectorOf hP g .inChar
  | putsp g => exact decodeWord_wordTrap_vectorOf hP g .putsp
  | halt g => exact decodeWord_wordTrap_vectorOf hP g .halt
  | br nzp off9 =>
    rw [decodeWord_br (w := encode (.br nzp off9) P) (EncodedOpcode.br nzp off9), encode, bitField_br_hi,
      bitField_br_lo]
  | jsr off11 => rw [decodeWord_jsr (w := encode (.jsr off11) P) (EncodedOpcode.jsr off11), encode, decodeJsr_jsr]
  | jsrr g base h =>
    rw [decodeWord_jsr (w := encode (.jsrr g base h) P) (EncodedOpcode.jsrr g base h), encode, decodeJsr_jsrr]
  | reserved1000 g =>
    rw [decodeWord_reserved1000 (w := encode (.reserved1000 g) P) (EncodedOpcode.reserved1000 g), encode,
      bitField_reserved]
  | reserved1101 g =>
    rw [decodeWord_reserved1101 (w := encode (.reserved1101 g) P) (EncodedOpcode.reserved1101 g), encode,
      bitField_reserved]

end Sys2Proof

section
open Sys2Proof Sys2Proof.Machine

/-- Settles O2: the first word of the list is decoded, and the spec's parameters are a proper choice. -/
theorem decodeOfEncodeIsTheInstruction : Obligations.DecodeOfEncodeIsTheInstruction := by
  have hany : ∀ P i rest, P.wf = true → WellFormed i P = true → decode (encode i P :: rest) P = .ok (i, rest) :=
    fun P i rest hP hi => congrArg (fun j => Except.ok (j, rest)) (decodeWord_encode hP hi)
  exact ⟨fun i rest hi => hany Params.spec i rest Params.spec_wf hi, hany⟩

end

/-! PROOF. R51: the row of the opcode table that a word meets. -/

namespace Sys2Proof

open Sys2Proof.Machine Sys2Proof.Spec

variable {w : Word} {i : Instr}

/-! Every mask of the table keeps the opcode and at most one more field. -/

theorem and_F000 (w : Word) : w &&& 0xF000#16 = bitField w 12 4 ++ 0#12 := by
  have hw : bitField w 12 4 ++ bitField w 0 12 = w := by
    simpa (disch := decide) only [bitField_append] using bitField_whole w
  calc w &&& 0xF000#16
    _ = (bitField w 12 4 ++ bitField w 0 12) &&& (BitVec.allOnes 4 ++ 0#12) := by rw [hw]; rfl
    _ = _ := by simp only [BitVec.and_append, BitVec.and_allOnes, BitVec.and_zero]

theorem and_F020 (w : Word) : w &&& 0xF020#16 = bitField w 12 4 ++ 0#6 ++ bitField w 5 1 ++ 0#5 := by
  have hw : bitField w 12 4 ++ bitField w 6 6 ++ bitField w 5 1 ++ bitField w 0 5 = w := by
    simpa (disch := decide) only [bitField_append] using bitField_whole w
  calc w &&& 0xF020#16
    _ = (bitField w 12 4 ++ bitField w 6 6 ++ bitField w 5 1 ++ bitField w 0 5) &&&
        (BitVec.allOnes 4 ++ 0#6 ++ BitVec.allOnes 1 ++ 0#5) := by rw [hw]; rfl
    _ = _ := by simp only [BitVec.and_append, BitVec.and_allOnes, BitVec.and_zero]

theorem and_F1C0 (w : Word) : w &&& 0xF1C0#16 = bitField w 12 4 ++ 0#3 ++ bitField w 6 3 ++ 0#6 := by
  have hw : bitField w 12 4 ++ bitField w 9 3 ++ bitField w 6 3 ++ bitField w 0 6 = w := by
    simpa (disch := decide) only [bitField_append] using bitField_whole w
  calc w &&& 0xF1C0#16
    _ = (bitField w 12 4 ++ bitField w 9 3 ++ bitField w 6 3 ++ bitField w 0 6) &&&
        (BitVec.allOnes 4 ++ 0#3 ++ BitVec.allOnes 3 ++ 0#6) := by rw [hw]; rfl
    _ = _ := by simp only [BitVec.and_append, BitVec.and_allOnes, BitVec.and_zero]

theorem and_F800 (w : Word) : w &&& 0xF800#16 = bitField w 12 4 ++ bitField w 11 1 ++ 0#11 := by
  have hw : bitField w 12 4 ++ bitField w 11 1 ++ bitField w 0 11 = w := by
    simpa (disch := decide) only [bitField_append] using bitField_whole w
  calc w &&& 0xF800#16
    _ = (bitField w 12 4 ++ bitField w 11 1 ++ bitField w 0 11) &&&
        (BitVec.allOnes 4 ++ BitVec.allOnes 1 ++ 0#11) := by rw [hw]; rfl
    _ = _ := by simp only [BitVec.and_append, BitVec.and_allOnes, BitVec.and_zero]

theorem and_F0FF (w : Word) : w &&& 0xF0FF#16 = bitField w 12 4 ++ 0#4 ++ bitField w 0 8 := by
  have hw : bitField w 12 4 ++ bitField w 8 4 ++ bitField w 0 8 = w := by
    simpa (disch := decide) only [bitField_append] using bitField_whole w
  calc w &&& 0xF0FF#16
    _ = (bitField w 12 4 ++ bitField w 8 4 ++ bitField w 0 8) &&&
        (BitVec.allOnes 4 ++ 0#4 ++ BitVec.allOnes 8) := by rw [hw]; rfl
    _ = _ := by simp only [BitVec.and_append, BitVec.and_allOnes, BitVec.and_zero]

/-- R51: the rows of one opcode, in the table's order. -/
def rowsOf (op : BitVec 4) : List (Word × Word × String × String) :=
  opcodeRows.filter fun r => r.2.1.extractLsb' 12 4 == op

/-- R51: every row fixes the opcode, so only the rows of a word's opcode can match it. -/
theorem find_opcodeRows {op : BitVec 4} (hop : bitField w 12 4 = op) :
    opcodeRows.find? (fun r => w &&& r.1 == r.2.1) = (rowsOf op).find? fun r => w &&& r.1 == r.2.1 := by
  have hmask : ∀ r ∈ opcodeRows, r.1.extractLsb' 12 4 = BitVec.allOnes 4 := by decide
  rw [rowsOf, List.find?_filter]
  refine List.find?_congr fun r hr => ?_
  by_cases hmatch : w &&& r.1 = r.2.1
  · have hrow : r.2.1.extractLsb' 12 4 = op := by
      rw [← hmatch, BitVec.extractLsb'_and, hmask r hr, BitVec.and_allOnes, ← hop, bitField]
    simp [hmatch, hrow]
  · simp [hmatch]

theorem regField_eq_r7_iff {lo : Nat} : regField w lo = .r7 ↔ bitField w lo 3 = 7 := by
  unfold regField
  generalize bitField w lo 3 = b
  revert b
  decide

/-- R51, R78: a word of JMP with another base register than R7 does not meet the row of RET. -/
theorem and_F1C0_ne_ret (hop : bitField w 12 4 = 0xC) (hbase : regField w 6 ≠ .r7) :
    w &&& 0xF1C0#16 ≠ 0xC1C0#16 := by
  have hne : ∀ b : BitVec 3, b ≠ 7 → 0xC#4 ++ 0#3 ++ b ++ 0#6 ≠ 0xC1C0#16 := by decide
  rw [and_F1C0, hop]
  exact hne _ (mt regField_eq_r7_iff.mpr hbase)

/-- R51, R91: a word whose vector selects no service does not meet the row of one that does. -/
theorem and_F0FF_ne {k : Word} (hvect : Params.spec.serviceOf (bitField w 0 8) = none)
    (hk : Params.spec.serviceOf (k.extractLsb' 0 8) ≠ none) : w &&& 0xF0FF#16 ≠ k := by
  rintro rfl
  rw [and_F0FF, BitVec.extractLsb'_append_eq_right] at hk
  exact hk hvect

/-- R51: the row of the table that a word meets is the row of the instruction it is read as. -/
theorem Reading.row_eq (h : Reading Params.spec w i) :
    (opcodeRows.find? fun r => w &&& r.1 == r.2.1).map (fun r => r.2.2) = some (rowOf i) := by
  cases h with
  | br hop | ld hop | st hop | ldr hop | str hop | reserved1000 hop | not hop
  | ldi hop | sti hop | reserved1101 hop | lea hop =>
    rw [find_opcodeRows hop]
    simp [rowsOf, opcodeRows, rowOf, and_F000, hop]
  | addReg hop h5 | addImm hop h5 | andReg hop h5 | andImm hop h5 =>
    rw [find_opcodeRows hop]
    simp [rowsOf, opcodeRows, rowOf, and_F020, hop, h5]
  | jsr hop h11 | jsrr hop h11 =>
    rw [find_opcodeRows hop]
    simp [rowsOf, opcodeRows, rowOf, and_F800, hop, h11]
  | ret hop hbase =>
    rw [find_opcodeRows hop]
    simp [rowsOf, opcodeRows, rowOf, and_F1C0, hop, regField_eq_r7_iff.mp hbase]
  | jmp hop hbase =>
    rw [find_opcodeRows hop]
    simp [rowsOf, opcodeRows, rowOf, and_F000, hop, and_F1C0_ne_ret hop hbase]
  | @service n hop hvect =>
    rw [find_opcodeRows hop]
    cases n <;>
      simp [rowsOf, opcodeRows, rowOf, and_F0FF, hop, Params.eq_vectorOf hvect, serviceRow, Params.vectorOf,
        Params.spec]
  | trap hop hvect =>
    rw [find_opcodeRows hop]
    simp [rowsOf, opcodeRows, rowOf, and_F000, hop, and_F0FF_ne hvect, Params.serviceOf, Params.spec]

end Sys2Proof

/-! PROOF. R52, R53: where the fields stand. -/

namespace Sys2Proof

open Sys2Proof.Spec

theorem regNumber_regOfBits (b : BitVec 3) : regNumber (regOfBits b) = b.toNat := by
  revert b
  decide

end Sys2Proof

section
open Sys2Proof Sys2Proof.Machine Sys2Proof.Spec

/-- Settles O4: the decoder's answer is a reading of the word. -/
theorem decodePicksTheTableRow : Obligations.DecodePicksTheTableRow := fun w =>
  (reading_decodeWord Params.spec w).row_eq

/-- Settles O5: each reading of a word names its fields. -/
theorem fieldsStandWhereTheFormatsSay : Obligations.FieldsStandWhereTheFormatsSay := by
  refine ⟨regNumber_regOfBits, fun w => ?_⟩
  have hread := reading_decodeWord Params.spec w
  generalize decodeWord w = i at hread
  cases hread with
  | addReg | andReg => exact ⟨rfl, rfl, rfl, rfl⟩
  | addImm | andImm | not | ldr | str | jmp | jsrr => exact ⟨rfl, rfl, rfl⟩
  | br | ld | ldi | lea | st | sti => exact ⟨rfl, rfl⟩
  | jsr | reserved1000 | reserved1101 => rfl
  | ret _ hbase => exact ⟨rfl, hbase, rfl⟩
  | trap _ hvect => exact ⟨rfl, rfl, (serviceOf_eq_none_iff _).mp hvect⟩
  | @service n _ hvect =>
    have hv : isService (bitField w 0 8) := by
      by_contra hv
      simp [(serviceOf_eq_none_iff _).mpr hv] at hvect
    cases n <;> exact ⟨rfl, hv⟩

end

/-! PROOF. R49: what a step fetches and runs. -/

namespace Sys2Proof.Machine

variable {P : Params} {s : State}

/-- R49: from a state ready to fetch, a step is the handler of the decoded word under any parameters, too. -/
theorem stepAt_ready (h : Ready s) : stepAt P s = execAt P (decodeWord (fetchWord s P) P) (afterFetch s P) := by
  obtain ⟨hr, hv, ha⟩ := h
  simp [stepAt, stepWith, hr, hv, ha]

/-- R21: no step is taken from Halted or Faulted, whatever the handlers. -/
theorem stepWith_ne_next {run : Instr → State → Host.Outcome State Fault Refusal} {t : State}
    (h : s.run ≠ .running) : stepWith P run s ≠ .next t := by
  unfold stepWith
  split
  · nofun
  · cases hrun : s.run with
    | running => exact absurd hrun h
    | halted | faulted r => nofun

/-- R14: PC is incremented modulo 2^16. -/
theorem afterFetch_eq (P : Params) (s : State) :
    afterFetch s P = { (memRead s.pc s P).2 with pc := BitVec.ofNat 16 ((s.pc.toNat + 1) % 65536) } := by
  have hpc : s.pc + 1 = BitVec.ofNat 16 ((s.pc.toNat + 1) % 65536) := BitVec.eq_of_toNat_eq (by simp)
  rw [afterFetch, hpc, setPc]

/-- R36, R49: away from KBSR a step runs the word stored at PC. -/
theorem step_plain (h : Ready s) (hpc : s.pc ≠ 0xFE00) :
    step s = exec (decodeWord (s.word s.pc)) { s with pc := s.pc + 1 } := by
  rw [step_ready h, fetchWord, afterFetch, memRead_plain s s.pc (P := Params.spec) hpc, setPc]

theorem exec_st (sr : Reg) (off9 : BitVec 9) (s : State) :
    exec (.st sr off9) s = .next (memWrite (eaPc off9 s) (s.reg sr) s) := rfl

/-- R63: a word below 0x200 is a BR that selects no flag. -/
theorem decodeWord_of_lt {w : Word} (h : w.toNat < 0x200) : decodeWord w = .br 0b000 (bitField w 0 9) := by
  have hop : bitField w 12 4 = 0 := BitVec.eq_of_toNat_eq (by simp [bitField, Nat.shiftRight_eq_div_pow]; omega)
  have hnzp : bitField w 9 3 = 0 := BitVec.eq_of_toNat_eq (by simp [bitField, Nat.shiftRight_eq_div_pow]; omega)
  rw [decodeWord_br hop, hnzp]

end Sys2Proof.Machine

section
open Sys2Proof Sys2Proof.Machine Sys2Proof.Spec

/-- Settles O7: the step's definition for a state ready to fetch, and for one that is not running. -/
theorem stepRunsTheDecodedInstruction : Obligations.StepRunsTheDecodedInstruction := by
  refine ⟨fun s h => ?_, fun s t h => stepWith_ne_next h, fun P s h => ?_, fun P s t h => stepWith_ne_next h,
    fun i s => by rw [execAt_spec], fun s => by rw [stepAt_spec]⟩
  · rw [step_ready h, afterFetch_eq, fetchWord]
  · rw [stepAt_ready h, afterFetch_eq, fetchWord]

/-- Settles O8: the stored word is fetched, and it decodes to the instruction it encodes. -/
theorem stepRunsTheStoredWord : Obligations.StepRunsTheStoredWord := by
  refine ⟨fun s i hready hpc hi hword => ?_, fun sr off9 s t hexec hready hea hpc => ?_⟩
  · rw [step_plain hready hpc, hword, decodeWord_encode Params.spec_wf hi]
  · obtain rfl := Host.Outcome.next.inj ((exec_st sr off9 s).symm.trans hexec)
    have hstep := step_plain (s := memWrite (eaPc off9 s) (s.reg sr) s) hready hpc
    rwa [memWrite_pc, memWrite_word, if_pos hea.symm] at hstep

/-- Settles O27: the word at PC is a BR that never branches. -/
theorem brWithoutConditionIsANoOp : Obligations.BrWithoutConditionIsANoOp := by
  intro s hready hpc hword
  rw [step_plain hready hpc, decodeWord_of_lt hword, exec_br_noFlag]

/-- Settles O6: no handler is given its ignored bits; TRAP with a service's vector runs that service alone. -/
theorem ignoredBitsChangeNothing : Obligations.IgnoredBitsChangeNothing := by
  refine fun s => ⟨fun _ _ _ _ _ => rfl, fun _ _ _ _ _ => rfl, fun _ _ _ _ => rfl, fun _ _ _ _ _ => rfl,
    fun _ _ _ _ => rfl, fun _ _ _ _ _ => rfl, fun _ _ => ⟨rfl, rfl, rfl, rfl, rfl, rfl⟩, fun g h v hv => ?_⟩
  obtain ⟨n, hn⟩ := Option.ne_none_iff_exists'.mp (mt (serviceOf_eq_none_iff v).mp (not_not.mpr hv))
  rw [exec_of_service (i := .trap g v) hn, exec_of_service (i := .trap h v) hn]

/-- Settles O1, word by word. -/
theorem specWordsDecode : Obligations.SpecWordsDecode := by
  unfold Obligations.SpecWordsDecode
  decide

end

/-! PROOF. R51, R53, R69-R74: the operate instructions, as words and as results. -/

namespace Sys2Proof

open Sys2Proof.Machine

section
variable {P : Params} {w : Word}

theorem decodeOperate_reg (h5 : bitField w 5 1 = 0) (reg : Reg → Reg → BitVec 2 → Reg → Instr)
    (imm : Reg → Reg → BitVec 5 → Instr) :
    decodeOperate w reg imm = reg (regField w 9) (regField w 6) (bitField w 3 2) (regField w 0) := by
  simp [decodeOperate, h5]

theorem decodeOperate_imm (h5 : bitField w 5 1 = 1) (reg : Reg → Reg → BitVec 2 → Reg → Instr)
    (imm : Reg → Reg → BitVec 5 → Instr) :
    decodeOperate w reg imm = imm (regField w 9) (regField w 6) (bitField w 0 5) := by
  simp [decodeOperate, h5]

theorem decodeWord_add (hop : bitField w 12 4 = 0x1) : decodeWord w P = decodeOperate w .addReg .addImm := by
  simp [decodeWord, hop]

theorem decodeWord_and (hop : bitField w 12 4 = 0x5) : decodeWord w P = decodeOperate w .andReg .andImm := by
  simp [decodeWord, hop]

theorem decodeWord_not (hop : bitField w 12 4 = 0x9) :
    decodeWord w P = .not (regField w 9) (regField w 6) (bitField w 0 6) := by simp [decodeWord, hop]

end

end Sys2Proof

namespace Sys2Proof.Machine

/-- R20: a result written is its register and its flags, and nothing else. -/
theorem resultOnly_writeResult (dr : Reg) (v : Word) (s : State) : ResultOnly dr v s (writeResult dr v s) := by
  refine ⟨by simp, by simpa using flagsFit_condOf v, fun r hr => ?_, rfl, fun _ => rfl, ⟨rfl, rfl, rfl⟩, rfl⟩
  have hne : r ≠ dr := by simpa using hr
  simp [hne]

section
variable (dr sr1 sr2 : Reg) (s : State)

theorem exec_addReg (g : BitVec 2) :
    exec (.addReg dr sr1 g sr2) s = .next (writeResult dr (s.reg sr1 + s.reg sr2) s) := rfl

theorem exec_addImm (imm5 : BitVec 5) :
    exec (.addImm dr sr1 imm5) s = .next (writeResult dr (s.reg sr1 + sext16 imm5) s) := rfl

theorem exec_andReg (g : BitVec 2) :
    exec (.andReg dr sr1 g sr2) s = .next (writeResult dr (s.reg sr1 &&& s.reg sr2) s) := rfl

theorem exec_andImm (imm5 : BitVec 5) :
    exec (.andImm dr sr1 imm5) s = .next (writeResult dr (s.reg sr1 &&& sext16 imm5) s) := rfl

theorem exec_not (g : BitVec 6) : exec (.not dr sr1 g) s = .next (writeResult dr (~~~s.reg sr1) s) := rfl

end

/-- R73: AND with an extended field, bit by bit; from bit 16 up both sides are false. -/
theorem getLsbD_and_sext16 {n : Nat} (a : Word) (f : BitVec n) (k : Nat) :
    (a &&& sext16 f).getLsbD k = (a.getLsbD k && (if k < n then f.getLsbD k else f.getLsbD (n - 1))) := by
  rw [BitVec.getLsbD_and]
  by_cases hk : k < 16
  · rw [getLsbD_sext16 hk]
  · rw [BitVec.getLsbD_of_ge a k (Nat.not_lt.mp hk), Bool.false_and, Bool.false_and]

end Sys2Proof.Machine

section
open Sys2Proof Sys2Proof.Machine

/-- Settles O21: the register form's reading, and its result as a number by `BitVec.toNat_add`. -/
theorem addRegisterForm : Obligations.AddRegisterForm :=
  ⟨fun _ hop h5 => (decodeWord_add hop).trans (decodeOperate_reg h5 ..),
   fun dr sr1 g sr2 s => ⟨_, _, exec_addReg dr sr1 sr2 s g, resultOnly_writeResult .., BitVec.toNat_add ..⟩⟩

/-- Settles O22: the immediate form's reading, and its result by what `sext16` is as a number. -/
theorem addImmediateForm : Obligations.AddImmediateForm :=
  ⟨fun _ hop h5 => (decodeWord_add hop).trans (decodeOperate_imm h5 ..),
   fun dr sr1 imm5 s =>
    ⟨_, _, exec_addImm dr sr1 s imm5, resultOnly_writeResult .., toNat_add_sext16 (by decide) _ imm5⟩⟩

/-- Settles O23: the register form's reading, and its result by `BitVec.getLsbD_and`. -/
theorem andRegisterForm : Obligations.AndRegisterForm :=
  ⟨fun _ hop h5 => (decodeWord_and hop).trans (decodeOperate_reg h5 ..),
   fun dr sr1 g sr2 s => ⟨_, _, exec_andReg dr sr1 sr2 s g, resultOnly_writeResult .., fun _ => BitVec.getLsbD_and⟩⟩

/-- Settles O24: the immediate form's reading, and its result by what `sext16` is bit by bit. -/
theorem andImmediateForm : Obligations.AndImmediateForm :=
  ⟨fun _ hop h5 => (decodeWord_and hop).trans (decodeOperate_imm h5 ..),
   fun dr sr1 imm5 s =>
    ⟨_, _, exec_andImm dr sr1 s imm5, resultOnly_writeResult .., getLsbD_and_sext16 _ imm5⟩⟩

/-- Settles O25: NOT's reading, and the complement as a number by `BitVec.toNat_not`. -/
theorem notComplements : Obligations.NotComplements :=
  ⟨fun _ hop => decodeWord_not hop,
   fun dr sr g s => ⟨_, _, exec_not dr sr s g, resultOnly_writeResult .., BitVec.toNat_not⟩⟩

end

/-! PROOF. R51, R53, R76-R80: the control instructions, as words and as jumps. -/

namespace Sys2Proof

open Sys2Proof.Machine

section
variable {P : Params} {w : Word}

theorem decodeWord_jmp (hop : bitField w 12 4 = 0xC) : decodeWord w P = decodeJmp w := by simp [decodeWord, hop]

theorem decodeJmp_of_ne (hbase : bitField w 6 3 ≠ 7) :
    decodeJmp w = .jmp (bitField w 9 3) (regField w 6) (bitField w 0 6) := if_neg (mt regField_eq_r7_iff.mp hbase)

theorem decodeJmp_of_eq (hbase : bitField w 6 3 = 7) : decodeJmp w = .ret (bitField w 9 3) (bitField w 0 6) :=
  if_pos (regField_eq_r7_iff.mpr hbase)

/-- R79, R80: the opcode and the bit that chooses between JSR and JSRR, read as one field. -/
theorem opcode_and_bit11 {op : BitVec 4} {b : BitVec 1} (h : bitField w 11 5 = op ++ b) :
    bitField w 12 4 = op ∧ bitField w 11 1 = b := by
  have happ : bitField w 12 4 ++ bitField w 11 1 = op ++ b := (bitField_append rfl).trans h
  have hhigh := congrArg (BitVec.extractLsb' 1 4) happ
  have hlow := congrArg (BitVec.extractLsb' 0 1) happ
  rw [BitVec.extractLsb'_append_eq_left, BitVec.extractLsb'_append_eq_left] at hhigh
  rw [BitVec.extractLsb'_append_eq_right, BitVec.extractLsb'_append_eq_right] at hlow
  exact ⟨hhigh, hlow⟩

theorem decodeWord_jsr_of_bit11 (h : bitField w 11 5 = 0b01001) : decodeWord w P = .jsr (bitField w 0 11) := by
  obtain ⟨hop, h11⟩ := opcode_and_bit11 (op := 0b0100) (b := 1) h
  exact (decodeWord_jsr hop).trans (if_pos h11)

theorem decodeWord_jsrr_of_bit11 (h : bitField w 11 5 = 0b01000) :
    decodeWord w P = .jsrr (bitField w 9 2) (regField w 6) (bitField w 0 6) := by
  obtain ⟨hop, h11⟩ := opcode_and_bit11 (op := 0b0100) (b := 0) h
  exact (decodeWord_jsr hop).trans (if_neg (by simp [h11]))

end

end Sys2Proof

namespace Sys2Proof.Machine

section
variable (s : State)

theorem exec_jmp (hi : BitVec 3) (base : Reg) (lo : BitVec 6) :
    exec (.jmp hi base lo) s = .next (setPc (s.reg base) s) := rfl

theorem exec_ret (hi : BitVec 3) (lo : BitVec 6) : exec (.ret hi lo) s = .next (setPc (s.reg .r7) s) := rfl

theorem exec_jsr (off11 : BitVec 11) : exec (.jsr off11) s = .next (setPc (eaPc11 off11 s) (linkR7 s)) := rfl

theorem execAt_jsrr (P : Params) (hi : BitVec 2) (base : Reg) (lo : BitVec 6) : execAt P (.jsrr hi base lo) s =
    .next (setPc ((if P.jsrrBaseAfterLink then linkR7 s else s).reg base) (linkR7 s)) := rfl

/-- R76: a BR that is not taken goes on at the incremented PC. -/
theorem exec_br (nzp : BitVec 3) (off9 : BitVec 9) : exec (.br nzp off9) s =
    .next (setPc (if maskSelects nzp s.cond then eaPc off9 s else s.pc) s) := by
  refine congrArg Host.Outcome.next ?_
  split <;> rfl

/-- R55, R82: the PC-relative address is the incremented PC plus the offset, modulo 2^16. -/
theorem eaPc_eq_ofNat (off9 : BitVec 9) : eaPc off9 s = BitVec.ofNat 16 (s.pc.toNat + sextNat off9) :=
  BitVec.eq_of_toNat_eq (toNat_add_sext16 (by decide) s.pc off9)

/-- R80, U12: JSRR's base differs from its old value only where it is R7 and the link write comes first. -/
theorem jsrrBase_reg (P : Params) (base : Reg) : (if P.jsrrBaseAfterLink then linkR7 s else s).reg base =
    if P.jsrrBaseAfterLink ∧ base = .r7 then s.pc else s.reg base := by
  cases P.jsrrBaseAfterLink <;> simp

theorem jumpOnly_setPc (target : Word) : JumpOnly target s (setPc target s) :=
  ⟨rfl, fun _ _ => rfl, rfl, fun _ => rfl, ⟨rfl, rfl, rfl⟩, rfl⟩

/-- R8: a jump with a link changes R7 and PC alone. -/
theorem setPc_linkR7_frame (target : Word) :
    SameRegsBut [.r7] s (setPc target (linkR7 s)) ∧ (setPc target (linkR7 s)).cond = s.cond ∧
      SameMem s (setPc target (linkR7 s)) ∧ SameLoop s (setPc target (linkR7 s)) ∧
      (setPc target (linkR7 s)).host = s.host := by
  refine ⟨fun r hr => ?_, rfl, fun _ => rfl, ⟨rfl, rfl, rfl⟩, rfl⟩
  have h7 : r ≠ .r7 := by simpa using hr
  simp [h7]

end

end Sys2Proof.Machine

section
open Sys2Proof Sys2Proof.Machine

/-- Settles O26: BR's reading, and its target by what the mask selects. -/
theorem brBranchesByTheMask : Obligations.BrBranchesByTheMask := by
  refine ⟨fun _ hop => decodeWord_br hop, fun nzp off9 s => ⟨_, exec_br s nzp off9, ?_⟩⟩
  simp only [← maskSelects_iff, ← eaPc_eq_ofNat]
  exact jumpOnly_setPc s _

/-- Settles O28: the two readings of opcode 1100 by its base field; RET and JMP through R7 are one jump. -/
theorem jmpAndRetGoToTheBase : Obligations.JmpAndRetGoToTheBase :=
  ⟨fun _ hop hbase => (decodeWord_jmp hop).trans (decodeJmp_of_ne hbase),
   fun _ hop hbase => (decodeWord_jmp hop).trans (decodeJmp_of_eq hbase), rfl,
   fun hi base lo s =>
    ⟨⟨_, exec_jmp s hi base lo, jumpOnly_setPc ..⟩, ⟨_, exec_ret s hi lo, jumpOnly_setPc ..⟩,
      (exec_ret s hi lo).trans (exec_jmp s hi .r7 lo).symm⟩⟩

/-- Settles O29: JSR's reading, and its target as a number; the link write changes R7 alone. -/
theorem jsrLinksAndJumps : Obligations.JsrLinksAndJumps :=
  ⟨fun _ hop => decodeWord_jsr_of_bit11 hop,
   fun off11 s => ⟨_, exec_jsr s off11, rfl, toNat_add_sext16 (by decide) s.pc off11, setPc_linkR7_frame ..⟩⟩

/-- Settles O30: JSRR's reading, and its base under any parameters; the spec's read it after the link write. -/
theorem jsrrLinksThenReadsTheBase : Obligations.JsrrLinksThenReadsTheBase := by
  refine ⟨fun _ hop => decodeWord_jsrr_of_bit11 hop, fun hi base lo s => ?_,
    fun P hi base lo s => ⟨_, execAt_jsrr s P hi base lo, rfl, jsrrBase_reg s P base⟩⟩
  rw [← execAt_spec]
  exact ⟨_, execAt_jsrr s Params.spec hi base lo, rfl, linkR7_reg s base, setPc_linkR7_frame ..⟩

end

/-! PROOF. R51, R53, R82-R89: the load and store instructions, as words, as addresses and as accesses to memory. -/

namespace Sys2Proof

open Sys2Proof.Machine

section
variable {P : Params} {w : Word}

theorem decodeWord_ld (hop : bitField w 12 4 = 0x2) : decodeWord w P = .ld (regField w 9) (bitField w 0 9) := by
  simp [decodeWord, hop]

theorem decodeWord_ldi (hop : bitField w 12 4 = 0xA) : decodeWord w P = .ldi (regField w 9) (bitField w 0 9) := by
  simp [decodeWord, hop]

theorem decodeWord_ldr (hop : bitField w 12 4 = 0x6) :
    decodeWord w P = .ldr (regField w 9) (regField w 6) (bitField w 0 6) := by simp [decodeWord, hop]

theorem decodeWord_lea (hop : bitField w 12 4 = 0xE) : decodeWord w P = .lea (regField w 9) (bitField w 0 9) := by
  simp [decodeWord, hop]

theorem decodeWord_st (hop : bitField w 12 4 = 0x3) : decodeWord w P = .st (regField w 9) (bitField w 0 9) := by
  simp [decodeWord, hop]

theorem decodeWord_sti (hop : bitField w 12 4 = 0xB) : decodeWord w P = .sti (regField w 9) (bitField w 0 9) := by
  simp [decodeWord, hop]

theorem decodeWord_str (hop : bitField w 12 4 = 0x7) :
    decodeWord w P = .str (regField w 9) (regField w 6) (bitField w 0 6) := by simp [decodeWord, hop]

end

end Sys2Proof

namespace Sys2Proof.Machine

section
variable (dr sr base : Reg) (off9 : BitVec 9) (off6 : BitVec 6) (s : State)

theorem exec_ld : exec (.ld dr off9) s = .next (loadTo dr (eaPc off9 s) s) := rfl

theorem exec_ldr : exec (.ldr dr base off6) s = .next (loadTo dr (eaBase base off6 s) s) := rfl

theorem exec_lea : exec (.lea dr off9) s = .next (writeResult dr (eaPc off9 s) s) := rfl

theorem exec_str : exec (.str sr base off6) s = .next (storeFrom sr (eaBase base off6 s) s) := rfl

/-- R55, R82: the PC-relative address as a number. -/
theorem eaPc_toNat : (eaPc off9 s).toNat = (s.pc.toNat + sextNat off9) % 65536 :=
  toNat_add_sext16 (by decide) s.pc off9

/-- R57, R82: the base address as a number. -/
theorem eaBase_toNat : (eaBase base off6 s).toNat = ((s.reg base).toNat + sextNat off6) % 65536 :=
  toNat_add_sext16 (by decide) (s.reg base) off6

end

section
variable {P : Params} {s0 s : State}

/-- R34, R99: what stands still from `s0` to `s` where only reads of memory lie between them. -/
structure OnlyReadsBetween (s0 s : State) : Prop where
  regs : SameRegsBut [] s0 s
  cond : s.cond = s0.cond
  pc : s.pc = s0.pc
  loop : SameLoop s0 s

theorem OnlyReadsBetween.refl (s : State) : OnlyReadsBetween s s := ⟨fun _ _ => rfl, rfl, rfl, rfl, rfl, rfl⟩

theorem OnlyReadsBetween.reg (h : OnlyReadsBetween s0 s) (r : Reg) : s.reg r = s0.reg r := h.regs r List.not_mem_nil

theorem onlyReadsBetween_afterRead (a : Word) (s : State) : OnlyReadsBetween s (afterRead a s P) :=
  ⟨fun r _ => afterRead_reg s a r, afterRead_cond s a, afterRead_pc s a, afterRead_run s a, afterRead_out s a,
    afterRead_svc s a⟩

theorem OnlyReadsBetween.trans {t : State} (h : OnlyReadsBetween s0 s) (h' : OnlyReadsBetween s t) :
    OnlyReadsBetween s0 t := by
  obtain ⟨hrun, hout, hsvc⟩ := h.loop
  obtain ⟨hrun', hout', hsvc'⟩ := h'.loop
  exact ⟨fun r _ => (h'.reg r).trans (h.reg r), h'.cond.trans h.cond, h'.pc.trans h.pc, hrun'.trans hrun,
    hout'.trans hout, hsvc'.trans hsvc⟩

/-- R83-R85: a load is its read, then the result written from the word read. -/
theorem loadOnly_loadTo (h : OnlyReadsBetween s0 s) (dr : Reg) (a : Word) : LoadOnly dr a s0 s (loadTo dr a s) := by
  have hread : OnlyReadsBetween s0 (afterRead a s) := h.trans (onlyReadsBetween_afterRead a s)
  obtain ⟨hreg, hflags, hregs, -, hmem, -, hhost⟩ := resultOnly_writeResult dr (memRead a s).1 (afterRead a s)
  exact ⟨hreg, hflags, fun r hr => (hregs r hr).trans (hread.reg r), hread.pc, hmem, hhost, hread.loop⟩

/-- R36: a load away from KBSR writes the stored word and nothing else. -/
theorem resultOnly_loadTo {a : Word} (ha : a ≠ Params.spec.kbsrAddr) (dr : Reg) (s : State) :
    ResultOnly dr (s.word a) s (loadTo dr a s) := by
  rw [loadTo_eq, memRead_plain s a ha, afterRead_plain s a ha]
  exact resultOnly_writeResult dr (s.word a) s

/-- R34, R35: a read of KBSR gives the status word its poll leaves. -/
theorem memRead_kbsr_fst (s : State) :
    (memRead Params.spec.kbsrAddr s).1 = if (hostPoll s).1 then 0x8000 else 0x0000 := by
  rw [memRead_fst, afterRead_kbsr]
  exact keyboardPoll_kbsr s (by decide)

/-- R19, R83: a load from KBSR gives the ready word and N where the poll finds a character, else the zero word and Z. -/
theorem loadTo_kbsr (dr : Reg) (s : State) :
    (loadTo dr Params.spec.kbsrAddr s).reg dr = (if (hostPoll s).1 then 0x8000 else 0x0000) ∧
      (loadTo dr Params.spec.kbsrAddr s).cond = if (hostPoll s).1 then .n else .z := by
  rw [loadTo_eq, writeResult_reg, writeResult_cond, if_pos rfl, memRead_kbsr_fst]
  cases (hostPoll s).1 <;> exact ⟨rfl, by decide⟩

theorem memWrite_sameMemBut (a v : Word) (s : State) : SameMemBut [a] s (memWrite a v s) := fun x hx => by
  have hne : x ≠ a := by simpa using hx
  simp [hne]

/-- R37, R87-R89: a store writes the register's word at its address and nothing else. -/
theorem storeOnly_storeFrom (h : OnlyReadsBetween s0 s) (sr : Reg) (a : Word) :
    StoreOnly sr a s0 s (storeFrom sr a s) :=
  ⟨by simp [h.reg sr], memWrite_sameMemBut a (s.reg sr) s, h.regs, h.cond, h.pc, rfl, h.loop⟩

end

end Sys2Proof.Machine

section
open Sys2Proof Sys2Proof.Machine

/-- Settles O31, by what a sign-extended offset adds to an address. -/
theorem effectiveAddressesWrap : Obligations.EffectiveAddressesWrap :=
  ⟨eaPc_toNat, eaBase_toNat⟩

/-- Settles O37: LD's reading, and its load away from KBSR and at KBSR. -/
theorem ldLoadsPcRelative : Obligations.LdLoadsPcRelative := by
  refine ⟨fun _ hop => decodeWord_ld hop, fun dr off9 s => ⟨_, exec_ld dr off9 s, loadOnly_loadTo (.refl s) dr _,
    eaPc_toNat off9 s, fun ha => resultOnly_loadTo ha dr s, fun ha => ?_⟩⟩
  rw [ha]
  exact loadTo_kbsr dr s

/-- Settles O38: LDI's reading, and its load in the state that the pointer's read leaves. -/
theorem ldiLoadsThroughThePointer : Obligations.LdiLoadsThroughThePointer := by
  refine ⟨fun _ hop => decodeWord_ldi hop, fun dr off9 s => ⟨_, exec_ldi dr off9 s,
    loadOnly_loadTo (onlyReadsBetween_afterRead _ s) dr _, fun hptr hdata => ?_⟩⟩
  rw [memRead_plain (P := Params.spec) s _ hptr]
  exact resultOnly_loadTo hdata dr s

/-- Settles O39: LDR's reading, and its load at the base address. -/
theorem ldrLoadsBasePlusOffset : Obligations.LdrLoadsBasePlusOffset :=
  ⟨fun _ hop => decodeWord_ldr hop,
   fun dr base off6 s => ⟨_, exec_ldr dr base off6 s, loadOnly_loadTo (.refl s) dr _, eaBase_toNat base off6 s,
    fun ha => resultOnly_loadTo ha dr s⟩⟩

/-- Settles O40: LEA's reading, and the address as its result. -/
theorem leaWritesTheAddress : Obligations.LeaWritesTheAddress :=
  ⟨fun _ hop => decodeWord_lea hop,
   fun dr off9 s => ⟨_, _, exec_lea dr off9 s, resultOnly_writeResult .., eaPc_toNat off9 s⟩⟩

/-- Settles O41: the readings of ST and STR, and their stores with no read before them. -/
theorem stAndStrStore : Obligations.StAndStrStore :=
  ⟨fun _ hop => decodeWord_st hop, fun _ hop => decodeWord_str hop,
   fun sr off9 s => ⟨_, exec_st sr off9 s, fun a ha => ha ▸ storeOnly_storeFrom (.refl s) sr a⟩,
   fun sr base off6 s => ⟨_, exec_str sr base off6 s, fun a ha => ha ▸ storeOnly_storeFrom (.refl s) sr a⟩⟩

/-- Settles O42: STI's reading, and its store in the state that the pointer's read leaves. -/
theorem stiStoresThroughThePointer : Obligations.StiStoresThroughThePointer := by
  refine ⟨fun _ hop => decodeWord_sti hop, fun sr off9 s => ⟨_, exec_sti sr off9 s, ?_, fun hptr => ?_⟩⟩
  · rintro _ rfl
    exact storeOnly_storeFrom (onlyReadsBetween_afterRead _ s) sr _
  · rw [memRead_plain (P := Params.spec) s _ hptr]
    exact storeOnly_storeFrom (.refl s) sr _

end

/-! PROOF. R90: TRAP's link, and the service that a vector selects. -/

namespace Sys2Proof.Machine

open Sys2Proof.Spec

variable {n : ServiceName} {s t : State}

/-- R90: what keeps the registers of the linked state, the flags and PC changes R7 alone of them. -/
theorem linkOnly_of_fields (hregs : t.regs = (linkR7 s).regs) (hcond : t.cond = s.cond) (hpc : t.pc = s.pc) :
    LinkOnly s t := by
  have hreg : ∀ r, t.reg r = if r = .r7 then s.pc else s.reg r := fun r => by
    rw [State.reg_def, hregs, ← State.reg_def, linkR7_reg]
  refine ⟨by simp [hreg], fun r hr => ?_, hcond, hpc⟩
  have h7 : r ≠ .r7 := by simpa using hr
  simp [hreg, h7]

/-- R91: a service that reads no character changes no register but the link. -/
theorem linkOnly_runService (hn : readsChar n = false) (s : State) : LinkOnly s (runService n (linkR7 s)) := by
  obtain ⟨hregs, hcond⟩ := runService_regs_cond (P := Params.spec) hn (linkR7 s)
  exact linkOnly_of_fields hregs hcond (runService_frame (P := Params.spec) n (linkR7 s)).pc

/-- R91: GETC and IN are the services that read a character. -/
theorem vectorOf_of_readsChar (hn : readsChar n = true) :
    Params.spec.vectorOf n = 0x20 ∨ Params.spec.vectorOf n = 0x23 := by
  cases n with
  | getc => exact .inl rfl
  | inChar => exact .inr rfl
  | out | puts | putsp | halt => cases hn

@[simp] theorem serviceCalled_serviceRow (g : BitVec 4) (n : ServiceName) :
    serviceCalled (serviceRow g n) = some n := by
  cases n <;> rfl

/-- R91: TRAP with a service's vector has the outcome of that service's row. -/
theorem exec_trap_of_service {v : BitVec 8} (hv : Params.spec.serviceOf v = some n) (g : BitVec 4) (s : State) :
    exec (.trap g v) s = exec (serviceRow g n) s := by
  rw [exec_of_service (i := .trap g v) hv, exec_of_service (serviceCalled_serviceRow g n)]

/-- R91: each of the vectors from 0x20 to 0x25 selects a service. -/
theorem exists_serviceOf {v : BitVec 8} (hv : isService v) : ∃ n, Params.spec.serviceOf v = some n :=
  Option.ne_none_iff_exists'.mp (mt (serviceOf_eq_none_iff v).mp (not_not.mpr hv))

end Sys2Proof.Machine

section
open Sys2Proof Sys2Proof.Machine Sys2Proof.Spec

/-- Settles O43, by whether the vector selects a service; the services by their common frame. -/
theorem trapRunsTheServiceOfItsVector : Obligations.TrapRunsTheServiceOfItsVector := by
  refine ⟨fun w hop hv => ?_, fun w hop hv s => ?_, fun g s => ?_, fun g v s => ?_⟩
  · exact (decodeWord_trap hop).trans (decodeTrap_of_none ((serviceOf_eq_none_iff _).mpr hv))
  · obtain ⟨n, hn⟩ := exists_serviceOf hv
    rw [decodeWord_trap hop, decodeTrap_of_some hn]
    exact (exec_trap_of_service hn _ s).symm
  · have hrow (n : ServiceName) : exec (.trap g (Params.spec.vectorOf n)) s = exec (serviceRow g n) s :=
      exec_trap_of_service (Params.serviceOf_vectorOf Params.spec_wf n) g s
    exact ⟨hrow .getc, hrow .out, hrow .puts, hrow .inChar, hrow .putsp, hrow .halt⟩
  · cases hv : Params.spec.serviceOf v with
    | none =>
      have hlink : LinkOnly s (raiseFault .unknownTrapVector (encode (.trap g v)) (some v) (linkR7 s)) :=
        linkOnly_of_fields rfl rfl rfl
      exact ⟨_, exec_of_unknownVector hv g s, rfl, rfl, fun _ => hlink, fun _ _ => rfl⟩
    | some n =>
      have hframe := runService_frame (P := Params.spec) n (linkR7 s)
      refine ⟨_, exec_of_service (i := .trap g v) hv s, by simp [hframe.reg .r7], hframe.pc, fun hother => ?_,
        sameMemBut_pair_iff.mpr hframe.word⟩
      refine linkOnly_runService (Bool.eq_false_iff.mpr fun hread => hother ?_) s
      rw [Params.eq_vectorOf hv]
      exact vectorOf_of_readsChar hread

end

/-! PROOF. R92, R95, R98: GETC and IN, with the character there and while they hold. -/

namespace Sys2Proof.Machine

open Sys2Proof.Spec

variable {s t : State} {c : Byte} {bs pre : List Byte} {echo : Byte → List Byte} {finish : Byte → State → State}

/-- R92, R95: the flags of a character: Z for the zero byte, P for every other one, never N. -/
theorem condOf_zext16 (c : Byte) : condOf (zext16 c) = if c = 0 then .z else .p := by
  have hzero : zext16 c = 0x0000 ↔ c = 0 := by
    rw [← BitVec.toNat_inj, ← BitVec.toNat_inj, zext16_toNat]
    rfl
  have hsign : (zext16 c).getLsbD 15 = false := by simp [zext16]
  simp only [condOf, hzero, hsign, Bool.false_eq_true, if_false]

/-- R25: what an attempt leaves of the host's side depends on the host's side alone. -/
theorem hostReadAttempt_snd_host {s u : State} (h : u.host = s.host) :
    (hostReadAttempt u).2.host = (hostReadAttempt s).2.host := by
  unfold hostReadAttempt
  rw [h]
  split <;> simp [h]

/-- R92, R95: the character `c` read from the host and `bs` written out: R0, the flags and the host's side changed, the
registers `rs` at most, and the service ended. -/
structure CharacterRead (rs : List Reg) (c : Byte) (bs : List Byte) (s t : State) : Prop where
  r0 : (t.reg .r0).toNat = c.toNat
  cond : t.cond = if c = 0 then .z else .p
  regs : SameRegsBut rs s t
  pc : t.pc = s.pc
  mem : SameMem s t
  out : t.out = s.out ++ bs
  run : t.run = s.run
  svc : t.svc = none
  host : t.host = (hostReadAttempt s).2.host

/-- R92, R95, R98: a blocking read that finds a character ends its routine. -/
theorem awaitChar_characterRead (hf : EndsInR0 echo finish) (hc : (hostReadAttempt s).1 = some c) (held : Service) :
    CharacterRead [.r0] c (echo c) s (awaitChar held finish s) := by
  rw [awaitChar_some _ _ _ hc, hf]
  refine ⟨by simp [zext16_toNat], by simp [condOf_zext16], fun r hr => ?_, by simp, fun _ => by simp, by simp, by simp,
    by simp, by simp⟩
  have h0 : r ≠ .r0 := by simpa using hr
  simp [h0]

/-- R90, R95: the link write, and the output of IN's prompt, come before the read. -/
theorem CharacterRead.of_linkR7 (h : CharacterRead [.r0] c bs (hostWriteAll pre (linkR7 s)) t) :
    t.reg .r7 = s.pc ∧ CharacterRead [.r0, .r7] c (pre ++ bs) s t := by
  obtain ⟨hr0, hcond, hregs, hpc, hmem, hout, hrun, hsvc, hhost⟩ := h
  refine ⟨by simp [hregs .r7 (by decide)], hr0, hcond, fun r hr => ?_, hpc, hmem, by simpa using hout, hrun, hsvc,
    hhost.trans (hostReadAttempt_snd_host rfl)⟩
  obtain ⟨h0, h7⟩ : r ≠ .r0 ∧ r ≠ .r7 := by simpa using hr
  simp [hregs r (by simpa using h0), h7]

/-- R98, R100 (d): a blocking read that finds none records the service and changes the host's side, and nothing else. -/
theorem awaitChar_hold (hc : (hostReadAttempt s).1 = none) (held : Service) :
    awaitChar held finish s = { s with svc := some held, host := (hostReadAttempt s).2.host } := by
  rw [awaitChar_none _ _ _ hc, hostReadAttempt_frame]
  rfl

/-- R98, R100 (d): trying again in vain changes the host's side alone. -/
theorem awaitChar_hold_again {held : Service} (hsvc : s.svc = some held) (hc : (hostReadAttempt s).1 = none) :
    awaitChar held finish s = { s with host := (hostReadAttempt s).2.host } := by
  rw [awaitChar_hold hc, ← hsvc]

/-- R98: a step with GETC or IN in progress reads the character that is there, and IN echoes it. -/
theorem step_characterRead (hrun : s.run = .running) (habort : s.host.abort = false)
    (hsvc : s.svc = some .getc ∨ s.svc = some .inChar) (hc : (hostReadAttempt s).1 = some c) :
    ∃ t bs, step s = .next t ∧ CharacterRead [.r0] c bs s t ∧ (s.svc = some .getc → bs = []) ∧
      (s.svc = some .inChar → bs = [c]) := by
  rcases hsvc with hsvc | hsvc
  · exact ⟨_, _, step_service hrun hsvc habort, awaitChar_characterRead getcFinish_endsInR0 hc .getc, fun _ => rfl,
      fun h => by cases hsvc.symm.trans h⟩
  · exact ⟨_, _, step_service hrun hsvc habort, awaitChar_characterRead inFinish_endsInR0 hc .inChar,
      fun h => (by cases hsvc.symm.trans h), fun _ => rfl⟩

theorem hostWriteAll_nil (s : State) : hostWriteAll [] s = s := by simp [hostWriteAll]

section
variable (g : BitVec 4) (s : State)

theorem exec_getc : exec (.getc g) s = .next (getcRead (linkR7 s)) := rfl

theorem exec_inChar : exec (.inChar g) s = .next (inRead (hostWriteAll Config.inPrompt (linkR7 s))) := rfl

end

/-- R98: with no character there GETC holds after the link write. -/
theorem exec_getc_hold (g : BitVec 4) (hc : (hostReadAttempt s).1 = none) : exec (.getc g) s =
    .next { linkR7 s with svc := some .getc, host := (hostReadAttempt (linkR7 s)).2.host } :=
  congrArg Host.Outcome.next (awaitChar_hold (by simpa using hc) .getc)

/-- R98, R95: with no character there IN holds after the link write and the prompt. -/
theorem exec_inChar_hold (g : BitVec 4) (hc : (hostReadAttempt s).1 = none) : exec (.inChar g) s =
    .next { hostWriteAll Config.inPrompt (linkR7 s) with
      svc := some .inChar, host := (hostReadAttempt (hostWriteAll Config.inPrompt (linkR7 s))).2.host } :=
  congrArg Host.Outcome.next (awaitChar_hold (by simpa using hc) .inChar)

end Sys2Proof.Machine

section
open Sys2Proof Sys2Proof.Machine Sys2Proof.Spec

/-- Settles O44: the blocking read finds the character, after the link write alone. -/
theorem getcReadsOneCharacter : Obligations.GetcReadsOneCharacter := by
  intro g s c hc
  have hread : CharacterRead [.r0] c [] (hostWriteAll [] (linkR7 s)) (getcRead (linkR7 s)) := by
    rw [hostWriteAll_nil]
    exact awaitChar_characterRead getcFinish_endsInR0 (by simpa using hc) .getc
  obtain ⟨hlink, hr0, hcond, hregs, hpc, hmem, hout, hrun, hsvc, hhost⟩ := hread.of_linkR7
  exact ⟨_, exec_getc g s, hr0, hcond, hlink, hregs, hpc, hmem, by simpa using hout, hrun, hsvc, hhost⟩

/-- Settles O45: the blocking read finds the character, after the link write and the prompt. -/
theorem inPromptsReadsAndEchoes : Obligations.InPromptsReadsAndEchoes := by
  intro g s c hc
  have hread : CharacterRead [.r0] c [c] (hostWriteAll Config.inPrompt (linkR7 s))
      (inRead (hostWriteAll Config.inPrompt (linkR7 s))) :=
    awaitChar_characterRead inFinish_endsInR0 (by simpa using hc) .inChar
  obtain ⟨hlink, hr0, hcond, hregs, hpc, hmem, hout, hrun, hsvc, hhost⟩ := hread.of_linkR7
  exact ⟨_, exec_inChar g s, hr0, hcond, hlink, hregs, hpc, hmem, by simpa using hout, hrun, hsvc, hhost⟩

/-- Settles O46: a read that finds no character records the service, and each later step is one more attempt. -/
theorem getcAndInHoldUntilTheCharacter : Obligations.GetcAndInHoldUntilTheCharacter := by
  refine ⟨fun g s hc => ?_, fun s hrun habort hsvc hc => ?_, fun s c hrun habort hsvc hc => ?_⟩
  · exact ⟨_, _, exec_getc_hold g hc, exec_inChar_hold g hc, rfl, rfl, linkOnly_of_fields rfl rfl rfl,
      linkOnly_of_fields rfl rfl rfl, fun _ => rfl, fun _ => rfl, rfl, rfl, rfl, rfl⟩
  · rcases hsvc with hsvc | hsvc
    · exact (step_service hrun hsvc habort).trans (congrArg _ (awaitChar_hold_again hsvc hc))
    · exact (step_service hrun hsvc habort).trans (congrArg _ (awaitChar_hold_again hsvc hc))
  · obtain ⟨t, bs, hstep, hread, hgetc, hin⟩ := step_characterRead hrun habort hsvc hc
    exact ⟨t, hstep, hread.r0, hread.cond, hread.regs, hread.pc, hread.mem, hread.run.trans hrun, hread.svc,
      fun h => by simp [hread.out, hgetc h], fun h => by rw [hread.out, hin h]⟩

end

/-! PROOF. R93, R97: OUT and HALT. -/

namespace Sys2Proof.Machine

/-- R93, R94: bits 7:0 of a word as a number. -/
theorem lowByte_eq_ofNat (w : Word) : lowByte w = BitVec.ofNat 8 (w.toNat % 256) :=
  BitVec.eq_of_toNat_eq (by simp [lowByte])

/-- R96: bits 15:8 of a word as a number. -/
theorem highByte_eq_ofNat (w : Word) : highByte w = BitVec.ofNat 8 (w.toNat / 256) :=
  BitVec.eq_of_toNat_eq (by simp [highByte, Nat.shiftRight_eq_div_pow])

section
variable (g : BitVec 4) (s : State)

/-- R93: R0 is not the link register, so OUT writes it as it was. -/
theorem exec_out : exec (.out g) s = .next (hostWrite (lowByte (s.reg .r0)) (linkR7 s)) := rfl

theorem exec_halt : exec (.halt g) s = .next (setHalted (hostWriteAll Config.haltNotice (linkR7 s))) := rfl

end

end Sys2Proof.Machine

section
open Sys2Proof Sys2Proof.Machine Sys2Proof.Spec

/-- Settles O47: beside the link, OUT changes the output alone. -/
theorem outWritesTheLowByte : Obligations.OutWritesTheLowByte := fun g s =>
  ⟨_, exec_out g s, by simp [lowByte_eq_ofNat], linkOnly_of_fields rfl rfl rfl, fun _ => rfl, rfl, rfl, rfl⟩

/-- Settles O51: beside the link, HALT changes the output and RUN, and no step is taken from Halted. -/
theorem haltStopsTheMachine : Obligations.HaltStopsTheMachine := fun g s =>
  ⟨_, exec_halt g s, rfl, rfl, linkOnly_of_fields rfl rfl rfl, fun _ => rfl, rfl, rfl, fun _ =>
    stepWith_ne_next nofun⟩

end

/-! PROOF. R94, R96: PUTS and PUTSP, from the loop of their rule to the string in memory. -/

namespace Sys2Proof.Machine

open Sys2Proof.Spec

section
variable {bytes : Word → List Byte} {n m : Nat} {a : Word} {s t u : State}

/-- R94, R96: where the rule's loop comes to its zero word within the words of one step, the model's loop ends as it does. -/
theorem stringLoop_of_stringRun (held : Word → Service) (h : StringRun bytes n a s u) (hn : n ≤ m) :
    stringLoop held bytes m a s = setService none u := by
  induction h generalizing m with
  | done hzero =>
    obtain ⟨m, rfl⟩ : ∃ k, m = k + 1 := Nat.exists_eq_succ_of_ne_zero (by omega)
    rw [stringLoop_succ, if_pos hzero, memRead_snd]
  | more hne _ ih =>
    obtain ⟨m, rfl⟩ : ∃ k, m = k + 1 := Nat.exists_eq_succ_of_ne_zero (by omega)
    rw [stringLoop_succ, if_neg hne]
    exact ih (by omega)

/-- R90, R94, R96: what a string service leaves where its loop comes to the zero word. -/
theorem stringLoop_linked_of_stringRun {held : Word → Service} (ht : stringLoop held bytes m a (linkR7 s) = t)
    (h : StringRun bytes n a (linked s) u) (hn : n ≤ m) :
    LinkOnly s t ∧ t.out = u.out ∧ t.mem = u.mem ∧ t.host = u.host ∧ t.run = s.run ∧ t.svc = none ∧
      SameMemBut [0xFE00, 0xFE02] s t := by
  have hframe : StringFrame Params.spec (linkR7 s) t := ht ▸ stringLoop_frame ..
  obtain rfl : t = setService none u := ht.symm.trans (stringLoop_of_stringRun held h hn)
  exact ⟨linkOnly_of_fields hframe.regs hframe.cond hframe.pc, rfl, rfl, rfl, hframe.run, rfl,
    sameMemBut_pair_iff.mpr hframe.word⟩

end

/-- R94: the words from the address `a` on are the string `ws`, with no zero word in it, and then a zero word, none of them at
KBSR; addresses wrap. -/
structure StringAt (s : State) (a : Word) (ws : List Word) : Prop where
  nonzero : 0x0000 ∉ ws
  off_kbsr : ∀ k, k ≤ ws.length → a + BitVec.ofNat 16 k ≠ 0xFE00
  words : ∀ k, (h : k < ws.length) → s.word (a + BitVec.ofNat 16 k) = ws[k]
  zero : s.word (a + BitVec.ofNat 16 ws.length) = 0x0000

section
variable {s : State} {a w : Word} {ws : List Word}

theorem add_ofNat_succ (a : Word) (k : Nat) : a + BitVec.ofNat 16 (k + 1) = a + 1 + BitVec.ofNat 16 k := by
  rw [BitVec.ofNat_add, BitVec.add_comm (BitVec.ofNat 16 k), ← BitVec.add_assoc]
  rfl

theorem StringAt.head (h : StringAt s a (w :: ws)) : s.word a = w ∧ w ≠ 0x0000 :=
  ⟨(congrArg s.word (BitVec.add_zero a)).symm.trans (h.words 0 (Nat.zero_lt_succ _)), fun hw => h.nonzero (by simp [hw])⟩

theorem StringAt.tail (h : StringAt s a (w :: ws)) : StringAt s (a + 1) ws where
  nonzero := fun hmem => h.nonzero (List.mem_cons_of_mem w hmem)
  off_kbsr := fun k hk => add_ofNat_succ a k ▸ h.off_kbsr (k + 1) (by simpa using hk)
  words := fun k hk => add_ofNat_succ a k ▸ h.words (k + 1) (by simpa using hk)
  zero := add_ofNat_succ a ws.length ▸ h.zero

/-- R36: the first read of the string gives the stored word and has no side effect. -/
theorem StringAt.memRead_eq (h : StringAt s a ws) : memRead a s = (s.word a, s) :=
  memRead_plain s a (BitVec.add_zero a ▸ h.off_kbsr 0 (Nat.zero_le _))

theorem StringAt.after_hostWriteAll (h : StringAt s a ws) (bs : List Byte) : StringAt (hostWriteAll bs s) a ws :=
  ⟨h.nonzero, h.off_kbsr, h.words, h.zero⟩

theorem hostWriteAll_append (bs cs : List Byte) (s : State) :
    hostWriteAll cs (hostWriteAll bs s) = hostWriteAll (bs ++ cs) s := by
  simp [hostWriteAll]

/-- R94, R96: the rule's loop over a string in memory writes the bytes of its words in order. -/
theorem StringAt.stringRun (bytes : Word → List Byte) (h : StringAt s a ws) :
    StringRun bytes (ws.length + 1) a s (hostWriteAll (ws.flatMap bytes) s) := by
  induction ws generalizing a s with
  | nil =>
    have hzero : (memRead a s).1 = 0x0000 := by simpa [h.memRead_eq] using h.zero
    simpa [h.memRead_eq, hostWriteAll_nil] using StringRun.done (bytes := bytes) hzero
  | cons w ws ih =>
    obtain ⟨hw, hne⟩ := h.head
    refine .more (by simpa [h.memRead_eq, hw] using hne) ?_
    rw [h.memRead_eq, hw, List.flatMap_cons, ← hostWriteAll_append]
    exact ih (h.tail.after_hostWriteAll (bytes w))

end

theorem putsOf_eq : putsOf = putsBytes := funext fun w => by rw [putsOf, putsBytes, lowByte_eq_ofNat]

/-- R96: the high byte is zero exactly where the word is below 256. -/
theorem highByte_eq_zero_iff (w : Word) : highByte w = 0x00 ↔ w.toNat / 256 = 0 := by
  have hlt : w.toNat / 256 < 256 := Nat.div_lt_of_lt_mul w.isLt
  rw [highByte_eq_ofNat, ← BitVec.toNat_inj, BitVec.toNat_ofNat, show w.toNat / 256 % 2 ^ 8 = _ from Nat.mod_eq_of_lt hlt]
  rfl

theorem putspOf_eq : putspOf = putspBytes := funext fun w => by
  simp only [putspOf, putspBytes, highByte_eq_zero_iff, ← lowByte_eq_ofNat, ← highByte_eq_ofNat]
  split <;> rfl

section
variable (g : BitVec 4) (s : State)

theorem exec_puts : exec (.puts g) s =
    .next (stringLoop .puts putsBytes Params.memoryWords (s.reg .r0) (linkR7 s)) := rfl

theorem exec_putsp : exec (.putsp g) s =
    .next (stringLoop .putsp putspBytes Params.memoryWords (s.reg .r0) (linkR7 s)) := rfl

end

end Sys2Proof.Machine

section
open Sys2Proof Sys2Proof.Machine Sys2Proof.Spec

/-- Settles O48: the model's loop follows the rule's, with the same bytes for each word. -/
theorem stringServicesRunToTheZeroWord : Obligations.StringServicesRunToTheZeroWord := by
  refine ⟨fun g s n u hn h => ⟨_, exec_puts g s, ?_⟩, fun g s n u hn h => ⟨_, exec_putsp g s, ?_⟩⟩
  · rw [putsOf_eq] at h
    exact stringLoop_linked_of_stringRun rfl h hn
  · rw [putspOf_eq] at h
    exact stringLoop_linked_of_stringRun rfl h hn

/-- Settles O49, by O48 for the loop's run over the string. -/
theorem putsWritesTheStringInMemory : Obligations.PutsWritesTheStringInMemory := by
  intro g s ws hlen hne hkbsr hwords hzero
  have hstring : StringAt (linked s) (s.reg .r0) ws := ⟨hne, hkbsr, hwords, hzero⟩
  obtain ⟨hputs, -⟩ := stringServicesRunToTheZeroWord
  obtain ⟨t, hexec, hlink, hout, hmem, hhost, hrun, hsvc, -⟩ := hputs g s _ _ hlen (hstring.stringRun putsOf)
  refine ⟨t, hexec, ?_, hlink, fun x => by rw [State.word_def, hmem]; rfl, hrun, hsvc, hhost⟩
  rw [hout, List.map_eq_flatMap]
  rfl

end

/-! PROOF. R101-R103, R106: fault entry, and what a step leaves where it faults. -/

namespace Sys2Proof.Machine

open Sys2Proof.Laws

variable {i : Instr} {r : FaultRecord} {s t : State} {w : Word}

/-- R102: opcode 0b1101 faults, with the fetched word on record. -/
theorem exec_reserved1101 (g : BitVec 12) (s : State) : exec (.reserved1101 g) s =
    .next (raiseFault .reservedOpcode (encode (.reserved1101 g)) none s) := rfl

/-- `FaultEntry w s t`: the illegal word `w`, fetched before `s`, takes its fault, which leaves `t`. -/
inductive FaultEntry (w : Word) (s : State) : State → Prop
  | reserved (hop : bitField w 12 4 = 0x8 ∨ bitField w 12 4 = 0xD) :
    FaultEntry w s (raiseFault .reservedOpcode w none s)
  | unknownVector (hop : bitField w 12 4 = 0xF) (hv : Params.spec.serviceOf (bitField w 0 8) = none) :
    FaultEntry w s (raiseFault .unknownTrapVector w (some (bitField w 0 8)) (linkR7 s))

theorem faultEntry_trap {v : BitVec 8} (hv : Params.spec.serviceOf v = none) (g : BitVec 4) (s : State) :
    FaultEntry (encode (.trap g v)) s (raiseFault .unknownTrapVector (encode (.trap g v)) (some v) (linkR7 s)) := by
  have hvect : bitField (encode (.trap g v)) 0 8 = v := bitField_wordTrap_lo g v
  simpa only [hvect] using FaultEntry.unknownVector (s := s) (EncodedOpcode.trap g v) (hvect.symm ▸ hv)

/-- R21, R104: an instruction that ends Faulted, where the run had not, took a fault with its own word on record. -/
theorem Effect.faultEntry (h : Effect s i t) (hs : s.run = .running) (ht : t.run = .faulted r) :
    FaultEntry (encode i) s t := by
  cases h with
  | reserved1000 => exact .reserved (.inl (EncodedOpcode.reserved1000 _))
  | reserved1101 => exact .reserved (.inr (EncodedOpcode.reserved1101 _))
  | unknownVector hv => exact faultEntry_trap hv ..
  | service =>
    rw [runService_run, linkR7_run, hs] at ht
    split at ht <;> cases ht
  | br => split at ht <;> cases hs.symm.trans ht
  | _ => simp [hs] at ht

/-- R49, R101: a step that ends Faulted fetched an illegal word and took its fault. -/
theorem step_faultEntry (h : step s = .next t) (ht : t.run = .faulted r) :
    s.svc = none ∧ FaultEntry (fetchWord s) (afterFetch s) t := by
  obtain ⟨-, hrun, ⟨hsvc, hexec⟩ | ⟨v, -, rfl⟩⟩ := step_cases h
  · have hword : encode (decodeWord (fetchWord s)) = fetchWord s := (reading_decodeWord ..).encode_eq
    exact ⟨hsvc, hword ▸ (exec_effect hexec).faultEntry (by simpa using hrun) ht⟩
  · cases hrun.symm.trans ((resumeService_run v s).symm.trans ht)

/-- R101-R103: the record a fault leaves fits the state it leaves. -/
theorem FaultEntry.recordFits (h : FaultEntry w s t) (hsvc : s.svc = none) (ht : t.run = .faulted r) :
    RecordFits t r := by
  cases h with
  | reserved hop =>
    cases ht
    exact ⟨BitVec.sub_add_cancel .., hsvc, rfl, hop⟩
  | unknownVector hop hv =>
    cases ht
    exact ⟨BitVec.sub_add_cancel .., hsvc, hop, rfl, hv, by simp⟩

end Sys2Proof.Machine

section
open Sys2Proof Sys2Proof.Machine

/-- Settles O52: the link write, then fault entry with the word of the instruction. -/
theorem unknownTrapVectorFaults : Obligations.UnknownTrapVectorFaults := fun g v s hv =>
  ⟨_, exec_of_unknownVector ((serviceOf_eq_none_iff v).mpr hv) g s, rfl, linkOnly_of_fields rfl rfl rfl, fun _ => rfl,
    rfl, rfl, rfl⟩

/-- Settles O53: the decoder by the opcode, the handlers by fault entry. -/
theorem reservedOpcodesFault : Obligations.ReservedOpcodesFault :=
  ⟨fun _ hop => decodeWord_reserved1000 hop, fun _ hop => decodeWord_reserved1101 hop, fun g s =>
    ⟨exec_reserved1000 g s, exec_reserved1101 g s⟩⟩

/-- Settles O54: what fault entry changes of the state after the fetch, for each of the two causes. -/
theorem faultRecordNamesTheFetchedInstruction : Obligations.FaultRecordNamesTheFetchedInstruction := by
  intro s t r h ht
  obtain ⟨hsvc, hentry⟩ := step_faultEntry h ht
  have hpc : s.pc + 1 - 1 = s.pc := BitVec.add_sub_cancel ..
  cases hentry with
  | reserved =>
    cases ht
    exact ⟨hpc, rfl, rfl, by simp, by simp, fun _ => rfl, rfl, by simp [hsvc], nofun, fun _ => ⟨rfl, fun q _ => by simp⟩⟩
  | unknownVector =>
    cases ht
    refine ⟨hpc, rfl, rfl, by simp, by simp, fun _ => rfl, rfl, by simp [hsvc], fun _ => ⟨rfl, by simp, fun q hq => ?_⟩,
      nofun⟩
    have h7 : q ≠ .r7 := by simpa using hq
    simp [h7]

end

/-! PROOF. R100, R105, R108: a running step always answers, and the abort signal is the host's alone. -/

namespace Sys2Proof.Machine

variable {i : Instr} {s t : State}

/-- R100: every instruction answers a next state. -/
theorem exists_exec (i : Instr) (s : State) : ∃ t, exec i s = .next t := by
  cases i <;> exact ⟨_, rfl⟩

@[simp] theorem afterFetch_abort (s : State) : (afterFetch s).host.abort = s.host.abort := afterRead_abort s s.pc

/-- R27: no instruction touches the abort signal. -/
theorem Effect.abort_eq (h : Effect s i t) : t.host.abort = s.host.abort := by
  cases h with
  | @service _ n => exact (runService_frame (P := Params.spec) n (linkR7 s)).abort
  | br => split <;> rfl
  | _ => simp

/-- R27, R108: no step does. -/
theorem step_abort_eq (h : step s = .next t) : t.host.abort = s.host.abort := by
  obtain ⟨-, -, ⟨-, hexec⟩ | ⟨v, -, rfl⟩⟩ := step_cases h
  · exact (exec_effect hexec).abort_eq.trans (afterFetch_abort s)
  · exact (resumeService_frame (P := Params.spec) v s).abort

/-- R108: a raised abort precedes everything. -/
theorem step_raiseAbort (s : State) : step (raiseAbort s) = .fault .hostAbort := by
  have habort : (raiseAbort s).host.abort = true := rfl
  rw [step, stepWith, if_pos habort]

end Sys2Proof.Machine

section
open Sys2Proof Sys2Proof.Machine

/-- Settles O11: a running step carries on a service or runs an instruction, and both answer a next state. -/
theorem runningStepsAnswerNextUnlessAborted : Obligations.RunningStepsAnswerNextUnlessAborted := by
  refine ⟨fun s hrun habort => ?_, step_raiseAbort, fun s t => step_abort_eq⟩
  cases hsvc : s.svc with
  | some v => exact ⟨_, step_service hrun hsvc habort⟩
  | none =>
    rw [step_ready ⟨hrun, hsvc, habort⟩]
    exact exists_exec ..

end

/-! PROOF. The invariant of the machine, kept by every step. -/

namespace Sys2Proof.Machine

variable {i : Instr} {s t : State}

/-- R31: every instruction keeps memory in canonical form. -/
theorem Effect.mem_wf (h : Effect s i t) (hm : s.mem.wf = true) : t.mem.wf = true := by
  cases h with
  | @service _ n => exact (runService_frame (P := Params.spec) n (linkR7 s)).wf hm
  | ld | ldr => exact afterRead_wf _ _ hm
  | ldi => exact afterRead_wf _ _ (afterRead_wf _ _ hm)
  | st | str => exact memWrite_wf _ _ hm
  | sti => exact memWrite_wf _ _ (afterRead_wf _ _ hm)
  | br => split <;> exact hm
  | _ => exact hm

/-- R97, R98: a service routine that stays in progress has not ended the run. -/
theorem runService_run_of_svc {n : ServiceName} (hs : s.svc = none) (ht : (runService n s).svc ≠ none) :
    (runService n s).run = s.run := by
  rw [runService_run, if_neg]
  rintro rfl
  exact ht hs

/-- R90, R98: an instruction that leaves a service in progress linked R7 and has not changed RUN. -/
theorem Effect.linked_of_svc (h : Effect s i t) (hs : s.svc = none) (ht : t.svc ≠ none) :
    t.run = s.run ∧ t.reg .r7 = t.pc := by
  cases h with
  | @service _ n =>
    have hframe := runService_frame (P := Params.spec) n (linkR7 s)
    exact ⟨runService_run_of_svc (s := linkR7 s) hs ht, by simp [hframe.reg .r7, hframe.pc]⟩
  | br => split at ht <;> exact absurd hs ht
  | _ => simp [hs] at ht

/-- An instruction run where no service is in progress ends in a state that meets the invariant. -/
theorem Effect.invariant (h : Effect s i t) (hm : s.mem.wf = true) (hrun : s.run = .running) (hsvc : s.svc = none) :
    Invariant t := by
  refine ⟨h.mem_wf hm, fun r ht => (h.faultEntry hrun ht).recordFits hsvc ht, fun ht => ?_⟩
  obtain ⟨hkeep, hlink⟩ := h.linked_of_svc hsvc ht
  exact ⟨hkeep.trans hrun, hlink⟩

/-- R98, R129: a service carried on keeps the invariant. -/
theorem resumeService_invariant {v : Service} (hinv : Invariant s) (hsvc : s.svc = some v) :
    Invariant (resumeService v s) := by
  obtain ⟨hm, -, hprogress⟩ := hinv
  obtain ⟨hrun, hlink⟩ := hprogress (hsvc ▸ Option.some_ne_none v)
  have hframe := resumeService_frame (P := Params.spec) v s
  have hrunning : (resumeService v s).run = .running := (resumeService_run v s).trans hrun
  exact ⟨hframe.wf hm, fun r ht => (by cases hrunning.symm.trans ht),
    fun _ => ⟨hrunning, by rw [hframe.reg .r7 nofun, hframe.pc, hlink]⟩⟩

end Sys2Proof.Machine

section
open Sys2Proof Sys2Proof.Machine

/-- Settles O59: a step fetches and runs an instruction, or carries on the service in progress. -/
theorem everyStepKeepsTheInvariant : Obligations.EveryStepKeepsTheInvariant := by
  intro s t hinv h
  obtain ⟨-, hrun, ⟨hsvc, hexec⟩ | ⟨v, hsvc, rfl⟩⟩ := step_cases h
  · obtain ⟨hm, -, -⟩ := hinv
    exact (exec_effect hexec).invariant (afterRead_wf s s.pc hm) (by simpa using hrun) (by simpa using hsvc)
  · exact resumeService_invariant hinv hsvc

end

/-! PROOF. R129: PUTS and PUTSP over a string longer than one model step reads. -/

namespace Sys2Proof.Machine

open Sys2Proof.Spec

variable {bytes : Word → List Byte} {n : Nat} {a b : Word} {s u : State}

/-- R129: where none of the words the model's loop may read is zero, it leaves the service in progress at the address
reached. -/
theorem stringLoop_of_stringGoesOn (held : Word → Service) (h : StringGoesOn bytes n a s u b) :
    stringLoop held bytes n a s = setService (some (held b)) u := by
  induction h with
  | start => rfl
  | more hne _ ih =>
    rw [stringLoop_succ, if_neg hne]
    exact ih

theorem step_puts (hrun : s.run = .running) (habort : s.host.abort = false) (hsvc : s.svc = some (.puts a)) :
    step s = .next (stringLoop .puts putsBytes Params.memoryWords a s) := step_service hrun hsvc habort

theorem step_putsp (hrun : s.run = .running) (habort : s.host.abort = false) (hsvc : s.svc = some (.putsp a)) :
    step s = .next (stringLoop .putsp putspBytes Params.memoryWords a s) := step_service hrun hsvc habort

end Sys2Proof.Machine

section
open Sys2Proof Sys2Proof.Machine Sys2Proof.Spec

/-- Settles O50: the model's loop follows the rule's, from the handler and from a step with the service in progress. -/
theorem longStringsStayInProgress : Obligations.LongStringsStayInProgress := by
  unfold Obligations.LongStringsStayInProgress
  rw [putsOf_eq, putspOf_eq]
  refine ⟨fun g s u b h => ⟨_, exec_puts g s, stringLoop_of_stringGoesOn .puts h⟩,
    fun g s u b h => ⟨_, exec_putsp g s, stringLoop_of_stringGoesOn .putsp h⟩,
    fun s a u b hrun habort hsvc h => ?_, fun s a u b hrun habort hsvc h => ?_,
    fun s a n u hrun habort hsvc hn h => ?_, fun s a n u hrun habort hsvc hn h => ?_⟩
  · exact (step_puts hrun habort hsvc).trans (congrArg _ (stringLoop_of_stringGoesOn .puts h))
  · exact (step_putsp hrun habort hsvc).trans (congrArg _ (stringLoop_of_stringGoesOn .putsp h))
  · exact (step_puts hrun habort hsvc).trans (congrArg _ (stringLoop_of_stringRun .puts h hn))
  · exact (step_putsp hrun habort hsvc).trans (congrArg _ (stringLoop_of_stringRun .putsp h hn))

end

/-! PROOF. R117-R119, R122: what an image leaves in memory. -/

namespace Sys2Proof.Machine

/-- R118, R122: word `k` is the big-endian pair of the bytes `2k` and `2k + 1`, where the stream has both. -/
theorem getElem?_imageWords : (bytes : List Byte) → (k : Nat) → (imageWords bytes)[k]? =
    if h : 2 * k + 1 < bytes.length then some (bigEndian bytes[2 * k] bytes[2 * k + 1]) else none
  | [], _ => by simp [imageWords]
  | [_], _ => by simp [imageWords]
  | _ :: _ :: _, 0 => by simp [imageWords]
  | _ :: _ :: rest, k + 1 => by
    simp only [imageWords, List.getElem?_cons_succ, getElem?_imageWords rest k, Nat.mul_succ, List.getElem_cons_succ,
      List.length_cons, Nat.add_right_comm _ 2 1, Nat.add_lt_add_iff_right]

/-- R118, R119: an address reads as the word stored there, or as before where no word is. -/
theorem read_storeWords {a : Nat} (ha : a < Params.memoryWords) (o : Nat) (ws : List Word) (m : Memory) :
    (storeWords o ws m).read a = if o ≤ a then ws[a - o]?.getD (m.read a) else m.read a := by
  induction ws generalizing o m with
  | nil => simp [storeWords]
  | cons w ws ih =>
    rw [storeWords]
    split
    · rw [ih, Memory.read_write]
      rcases Nat.lt_trichotomy a o with hlt | rfl | hgt
      · rw [if_neg (by omega), if_neg (by omega), if_neg (by omega)]
      · simp
      · have hoff : a - o = a - (o + 1) + 1 := by omega
        rw [if_pos (Nat.succ_le_of_lt hgt), if_neg hgt.ne', if_pos hgt.le, hoff, List.getElem?_cons_succ]
    · rw [if_neg (by omega)]

theorem bigEndian_toNat (hi lo : Byte) : (bigEndian hi lo).toNat = hi.toNat * 256 + lo.toNat := by
  rw [bigEndian, BitVec.toNat_append, ← Nat.shiftLeft_add_eq_or_of_lt lo.isLt, Nat.shiftLeft_eq]

/-- R117, R118: an image of two bytes or more has its origin, and its words are stored from there on. -/
theorem loadImage_cons_cons (b0 b1 : Byte) (data : List Byte) (m : Memory) :
    loadImage (b0 :: b1 :: data) m = .ok (storeWords (bigEndian b0 b1).toNat (imageWords data) m) := rfl

end Sys2Proof.Machine

section
open Sys2Proof Sys2Proof.Machine

/-- Settles O56: the words after the origin are stored from it on, and each is its pair of bytes. -/
theorem imageLoadsFromItsOrigin : Obligations.ImageLoadsFromItsOrigin := by
  refine fun b0 b1 data m => ⟨_, loadImage_cons_cons b0 b1 data m, fun a => ?_⟩
  rw [read_storeWords a.isLt, getElem?_imageWords, bigEndian_toNat]
  by_cases ho : b0.toNat * 256 + b1.toNat ≤ a.toNat
  · by_cases hdata : 2 * (a.toNat - (b0.toNat * 256 + b1.toNat)) + 1 < data.length
    · simp [ho, hdata, bigEndian]
    · simp [ho, hdata]
  · simp [ho]

end

/-! PROOF. R116, R117, R120, R122: the images loaded one after another, and the start of a run. -/

namespace Sys2Proof.Machine

variable {b : List Byte} {images : List (List Byte)} {m m' : Memory} {s : State}

/-- R122: an image loads exactly where it has a whole origin word. -/
theorem exists_loadImage_iff (b : List Byte) (m : Memory) : (∃ m', loadImage b m = .ok m') ↔ 2 ≤ b.length := by
  match b with
  | [] => simp [loadImage, imageWords]
  | [_] => simp [loadImage, imageWords]
  | b0 :: b1 :: data => exact ⟨fun _ => by simp, fun _ => ⟨_, loadImage_cons_cons b0 b1 data m⟩⟩

/-- R120: the first image is loaded, and the others into what it leaves. -/
theorem loadImages_cons_eq_ok_iff :
    loadImages (b :: images) m = .ok m' ↔ ∃ m1, loadImage b m = .ok m1 ∧ loadImages images m1 = .ok m' := by
  rw [loadImages]
  split <;> simp [*]

/-- R116, R122: the images load exactly where each has a whole origin word. -/
theorem exists_loadImages_iff (images : List (List Byte)) (m : Memory) :
    (∃ m', loadImages images m = .ok m') ↔ ∀ b ∈ images, 2 ≤ b.length := by
  induction images generalizing m with
  | nil => simp [loadImages]
  | cons b rest ih =>
    rw [List.forall_mem_cons, ← exists_loadImage_iff b m]
    simp only [loadImages_cons_eq_ok_iff]
    constructor
    · rintro ⟨m', m1, hb, hrest⟩
      exact ⟨⟨m1, hb⟩, (ih m1).mp ⟨m', hrest⟩⟩
    · rintro ⟨⟨m1, hb⟩, hlen⟩
      obtain ⟨m', hrest⟩ := (ih m1).mpr hlen
      exact ⟨m', m1, hb, hrest⟩

/-- R120: an image put last is loaded into what the others leave. -/
theorem loadImages_concat (b : List Byte) (h : loadImages images m = .ok m') :
    loadImages (images ++ [b]) m = loadImage b m' := by
  induction images generalizing m with
  | nil =>
    cases h
    rw [List.nil_append, loadImages]
    split <;> simp [*, loadImages]
  | cons c rest ih =>
    obtain ⟨m1, hc, hrest⟩ := loadImages_cons_eq_ok_iff.mp h
    rw [List.cons_append, loadImages, hc]
    exact ih hrest

/-- R119: no word is stored above 0xFFFF, so the canonical form is kept. -/
theorem storeWords_wf (o : Nat) (ws : List Word) (hm : m.wf = true) : (storeWords o ws m).wf = true := by
  induction ws generalizing o m with
  | nil => exact hm
  | cons w ws ih =>
    rw [storeWords]
    split
    · next ho => exact ih (o + 1) (Memory.wf_write o w ho hm)
    · exact hm

theorem loadImage_wf (h : loadImage b m = .ok m') (hm : m.wf = true) : m'.wf = true := by
  unfold loadImage at h
  split at h
  · cases h
  · cases h
    exact storeWords_wf _ _ hm

theorem loadImages_wf (h : loadImages images m = .ok m') (hm : m.wf = true) : m'.wf = true := by
  induction images generalizing m with
  | nil =>
    cases h
    exact hm
  | cons b rest ih =>
    obtain ⟨m1, hb, hrest⟩ := loadImages_cons_eq_ok_iff.mp h
    exact ih hrest (loadImage_wf hb hm)

/-- R116: the core is entered exactly where there is an image and all of them load, from reset with their memory. -/
theorem boot_eq_ok_iff : boot images = .ok s ↔
    images ≠ [] ∧ ∃ m, loadImages images State.reset.mem = .ok m ∧ s = { State.reset with mem := m } := by
  unfold boot State.reset
  split
  · simp
  · next hload => simp [hload, eq_comm]
  · next hload => simp [hload]

end Sys2Proof.Machine

section
open Sys2Proof Sys2Proof.Machine

/-- Settles O57: a run is entered exactly where every image has its origin, and loading keeps the canonical form. -/
theorem bootLoadsTheImagesInOrder : Obligations.BootLoadsTheImagesInOrder := by
  refine ⟨rfl, fun images b hb hshort s h => ?_, fun images hne hlen => ?_, fun images s h => ?_,
    fun xs b m m1 h => loadImages_concat b h⟩
  · obtain ⟨-, m, hload, -⟩ := boot_eq_ok_iff.mp h
    have hlen := (exists_loadImages_iff images _).mp ⟨m, hload⟩ b hb
    omega
  · obtain ⟨m, hload⟩ := (exists_loadImages_iff images State.reset.mem).mpr hlen
    exact ⟨_, boot_eq_ok_iff.mpr ⟨hne, m, hload, rfl⟩⟩
  · obtain ⟨-, m, hload, rfl⟩ := boot_eq_ok_iff.mp h
    exact ⟨rfl, loadImages_wf hload rfl, hload⟩

end
